-- ==== Sys2Proof/Word.lean ====
section
/-! DEFINITION. The word types of the bus (rules R56, R59, R61): 32-bit words, made of 8-bit byte lanes. The `W`-bit
operand and result registers are `BitVec W`, with `W` taken from the configuration (Config.lean). -/

namespace Sys2Proof

/-- The width of every host access and of `CMD`, `CTRL`, `STATUS` and `INFO` (rule R56). -/
abbrev Word := BitVec 32

/-- One byte lane of a word (rule R61). -/
abbrev Byte := BitVec 8

end Sys2Proof
end

