-- ==== Sys2Proof/Config.lean ====
section
/-! DEFINITION. What is fixed for one RSAC (rules R6 to R8, R23): the operand width `W` and the window address `BASE`;
and the one value the spec leaves free (93_implementation_defined.md I9). -/

namespace Sys2Proof

/-- The configuration of one core (rule R23). `State` carries it as a field that no step changes, so that every
definition and statement of the model is about every width and every base (log 1). -/
structure Config where
  /-- `W`, the operand width in bits (rule R6). -/
  W : Nat
  /-- `BASE`, the byte address of the register window (rule R8). -/
  base : Nat
deriving DecidableEq, Repr

/-- `L = W / 32`, the number of 32-bit limbs of each wide register (rule R7). -/
abbrev Config.limbs (c : Config) : Nat := c.W / 32

/-- The size of the register window in bytes (rules R30, R57). -/
abbrev windowBytes : Nat := 0x1000

/-- The configuration `State.reset` is built with: `W = 64`, the reference configuration (rule R10), at `BASE = 0`
(DESIGN CHOICE, log 1). No statement of the model rests on it but those that name `State.reset`. -/
def Config.reference : Config := { W := 64, base := 0 }

/-- FREE VALUE: what the `n`-th read made while the hard reset input is asserted returns. The spec says "any value of
32 bits" (93_implementation_defined.md I9), so nothing constrains it (log 4). -/
opaque Config.freeWord : Nat → BitVec 32

end Sys2Proof
end

