-- ==== Sys2Proof/Syntax.lean ====
section
/-! DEFINITION. The command set of RSAC, revision 1 (rule R82): one constructor per row of spec/opcode_table.json. -/

namespace Sys2Proof

/-- The nine commands (rule R82). A command has no operand field: its operands are the registers `OPA`, `OPB` and
`OPC` and its results `RES0`, `RES1` and the flags, as rule R81 says (rule R80). -/
inductive Instr where
  /-- `RES0 = OPA + OPB` (rule R94). -/
  | add
  /-- `RES0 = OPA - OPB` (rule R95). -/
  | sub
  /-- `RES0 = OPA * OPB` (rule R97). -/
  | mul
  /-- `RES0 =` the floor quotient of `OPA` by `OPB` (rule R99). -/
  | div
  /-- `RES0 =` the non-negative remainder of `OPA` by the absolute value of `OPB` (rule R100). -/
  | mod
  /-- `RES0`, `RES1 =` the results of `div` and `mod` together (rule R101). -/
  | divmod
  /-- the signed comparison of `OPA` with `OPB`, into `LT`, `EQ`, `GT` (rule R96). -/
  | cmp
  /-- `RES0 =` the inverse of `OPA` modulo `OPB` (rule R102). -/
  | inv
  /-- `RES0 = OPA` to the power `OPB`, modulo `OPC` (rule R105). -/
  | powmod
deriving DecidableEq, Repr

end Sys2Proof
end

