-- ==== Sys2Proof/WellFormed.lean ====
section
/-! DEFINITION. What the spec calls legal: a configuration (rules R6, R8), a command word (rule R83), a host access
(rules R57 to R60). A command of `Instr` has no operands, so no term of `Instr` is ill-formed; what can be illegal is the
word it is read from. -/

namespace Sys2Proof

/-- A legal configuration: `W` is a multiple of 32 with `64 <= W <= 2048` (rule R6) and `BASE` a multiple of 4096
(rule R8). -/
abbrev Config.WellFormed (c : Config) : Prop :=
  c.W % 32 = 0 ∧ 64 ≤ c.W ∧ c.W ≤ 2048 ∧ c.base % windowBytes = 0

/-- A legal command word: "exactly when `CMD[31:4] = 0` and `1 <= CMD[3:0] <= 9`" (rule R83). -/
abbrev LegalWord (w : Word) : Prop :=
  w.toNat / 16 = 0 ∧ 1 ≤ w.toNat % 16 ∧ w.toNat % 16 ≤ 9

/-- A byte address inside the register window (rules R57, R58). -/
abbrev InWindow (c : Config) (addr : Nat) : Prop :=
  c.base ≤ addr ∧ addr < c.base + windowBytes

/-- An access the core defines: inside the window, of 4 bytes (rule R59), at an offset that is a multiple of 4
(rule R60). -/
abbrev DefinedAccess (c : Config) (addr size : Nat) : Prop :=
  InWindow c addr ∧ size = 4 ∧ (addr - c.base) % 4 = 0

end Sys2Proof
end

