-- ==== Sys2Proof/Decode.lean ====
section
/-! DEFINITION. The command word (rules R79 to R85, R92): the decoder, total on every word and on every list of bytes and
rejecting by name; the encoder, from the same table; and the byte lanes of a word (rule R61). -/

namespace Sys2Proof

/-- Why a word is no command (rules R83, R84). The core reports both as `ILLEGAL_COMMAND` (rule R115). -/
inductive DecodeError where
  /-- Fewer than the four bytes of a command word (rule R79). -/
  | truncated
  /-- The field `RSVD`, bits 31 to 4, is not zero (rule R83). -/
  | reservedBits
  /-- The field `OP` is 0 or in `0xA` to `0xF` (rule R84). -/
  | reservedOpcode
deriving DecidableEq, Repr

/-- The field `OP`, bits 3 to 0 of the command word (rule R79). -/
def opField (w : Word) : BitVec 4 := w.extractLsb' 0 4

/-- The field `RSVD`, bits 31 to 4 of the command word (rule R79). -/
def rsvdField (w : Word) : BitVec 28 := w.extractLsb' 4 28

/-- The opcode map of rule R82. -/
def decodeOpcode (op : BitVec 4) : Except DecodeError Instr :=
  match op.toNat with
  | 1 => .ok .add
  | 2 => .ok .sub
  | 3 => .ok .mul
  | 4 => .ok .div
  | 5 => .ok .mod
  | 6 => .ok .divmod
  | 7 => .ok .cmp
  | 8 => .ok .inv
  | 9 => .ok .powmod
  | _ => .error .reservedOpcode

/-- The decoder, total on every 32-bit word (rule R85): `RSVD` must be zero (rule R83), then `OP` selects the command.
A word that is illegal twice over is rejected for its reserved bits (log 12; the core does not tell the two apart). -/
def decodeWord (w : Word) : Except DecodeError Instr :=
  if rsvdField w = 0 then decodeOpcode (opField w) else .error .reservedBits

/-- Byte lane `j` of a word: bits `[8j+7:8j]` (rule R61). -/
def byteLane (w : Word) (j : Nat) : Byte := w.extractLsb' (8 * j) 8

/-- A word as bytes, the lowest address first: little-endian (rule R61). -/
def wordBytes (w : Word) : List Byte := [byteLane w 0, byteLane w 1, byteLane w 2, byteLane w 3]

/-- The word whose byte lanes 0 to 3 are given (rule R61). -/
def wordOfLanes (b0 b1 b2 b3 : Byte) : Word := b3 ++ b2 ++ b1 ++ b0

/-- The decoder on bytes, the lowest address first: one command word is four bytes and nothing else (rule R79); the bytes
after it are given back. -/
def decodeBytes : List Byte → Except DecodeError (Instr × List Byte)
  | b0 :: b1 :: b2 :: b3 :: rest =>
    match decodeWord (wordOfLanes b0 b1 b2 b3) with
    | .ok i => .ok (i, rest)
    | .error e => .error e
  | _ => .error .truncated

/-- The encoder: the `CMD` word of each command (rule R82; each command's own rule says the same word). -/
def encode : Instr → Word
  | .add => 0x00000001#32
  | .sub => 0x00000002#32
  | .mul => 0x00000003#32
  | .div => 0x00000004#32
  | .mod => 0x00000005#32
  | .divmod => 0x00000006#32
  | .cmp => 0x00000007#32
  | .inv => 0x00000008#32
  | .powmod => 0x00000009#32

/-- The encoder to bytes, the lowest address first. -/
def encodeBytes (i : Instr) : List Byte := wordBytes (encode i)

/-- The command word an opcode-table number stands for: its low `nbits` bits, the bits above them zero. -/
def tableWord (nbits w : Nat) : Word := BitVec.ofNat 32 (w % 2 ^ nbits)

/-- The instruction the decoder reads from a word of spec/opcode_table.json, laid out as bytes and given to the decoder
(log 12). -/
def decodeTableWord (nbits w : Nat) : Option Instr :=
  match decodeBytes (wordBytes (tableWord nbits w)) with
  | .ok (i, _) => some i
  | .error _ => none

end Sys2Proof
end

