-- ==== Sys2Proof/Machine/State.lean ====
section
/-! DEFINITION. The state of RSAC as plain data: the architectural record of rule R22, the configuration it is built for,
and the environment's part (the hard reset input, the host's accesses, whose turn it is). -/

namespace Sys2Proof.Machine

/-- The architectural state, "exactly this record" (rule R22). `STATUS.ERR`, `INFO` and `IRQ` are read from it
(Bus.lean). -/
structure Regs (W : Nat) where
  /-- `OPA`, first operand register (rule R24). -/
  opa : BitVec W
  /-- `OPB`, second operand register (rule R24). -/
  opb : BitVec W
  /-- `OPC`, third operand register (rule R24). -/
  opc : BitVec W
  /-- `RES0`, result register (rule R25). -/
  res0 : BitVec W
  /-- `RES1`, second result register (rule R25). -/
  res1 : BitVec W
  /-- `CMD`, all 32 bits as written (rule R39). -/
  cmd : Word
  /-- `CTRL.IEN`, interrupt enable (rule R37). -/
  ien : Bool
  /-- `STATUS.BUSY`, the phase bit (rules R28, R41). -/
  busy : Bool
  /-- `STATUS.DONE` (rule R42). -/
  done : Bool
  /-- `STATUS.LOST`, a write was dropped (rule R44). -/
  lost : Bool
  /-- `STATUS.ERRCODE`, the code of the last completed command (rules R45, R110). -/
  errcode : BitVec 4
  /-- `STATUS.LT` (rule R46). -/
  lt : Bool
  /-- `STATUS.EQ` (rule R46). -/
  eq : Bool
  /-- `STATUS.GT` (rule R46). -/
  gt : Bool
deriving DecidableEq, Repr

/-- Every component of rule R22 at its reset value: "every register and field resets to 0" (rule R53). -/
def Regs.reset (W : Nat) : Regs W where
  opa := 0
  opb := 0
  opc := 0
  res0 := 0
  res1 := 0
  cmd := 0
  ien := false
  busy := false
  done := false
  lost := false
  errcode := 0
  lt := false
  eq := false
  gt := false

/-- One step of the host (rules R17, R21, R89): an access of `size` bytes at byte address `addr`, one pass of its polling
loop, or the forming of a value from the words it has read. The data of a write is one 32-bit word, since an access of any other size is outside the contract
(rule R60). -/
inductive HostOp where
  /-- `MemRead(addr, size)`. -/
  | read (addr size : Nat)
  /-- `MemWrite(addr, size, v)`. -/
  | write (addr size : Nat) (v : Word)
  /-- `wait`: read `STATUS` and do so again while bit 0 is 1; the branch is the host's (rule R90; log 15). -/
  | wait
  /-- `r := val(X)`, the end of `get X -> r`: form the value of the `L` words read last (rules R88, R90; log 18). -/
  | collect
deriving DecidableEq, Repr

/-- Who moves next (rule R21): one of the two agents, or the hard reset input (rule R131). -/
inductive Turn where
  /-- The host makes its next access. -/
  | host
  /-- The core is given a step: the completion, if a command is in progress. -/
  | core
  /-- The platform asserts the hard reset input. -/
  | assertReset
  /-- The platform releases the hard reset input. -/
  | releaseReset
deriving DecidableEq, Repr

/-- The whole machine: configuration, architectural state and environment. -/
structure State where
  /-- The configuration; no step changes it (rule R23; log 1). -/
  cfg : Config
  /-- The architectural state (rule R22). -/
  regs : Regs cfg.W
  /-- The hard reset input: true while it is asserted (rule R131). -/
  rst : Bool
  /-- The host's accesses still to come, in the order they reach the core (rules R70, R71; log 8). -/
  host : List HostOp
  /-- Who moves in the steps to come (rules R21, R145; log 2). When it is used up, `defaultTurn` says. -/
  sched : List Turn
  /-- What the host's reads returned, the newest first; `none` stands for a read the core did not answer (log 7). -/
  rdata : List (Option Word)
  /-- The values `r` that the host's `get`s have formed, the newest first (rule R90; log 18). -/
  got : List Int
  /-- Which free value the next read under reset takes (93_implementation_defined.md I9; log 4). -/
  free : Nat
deriving DecidableEq, Repr

/-- Why a step stops the machine. -/
inductive Fault where
  /-- A host access that is not an aligned 32-bit access touches the window. Raised by `busRead` and `busWrite`. The spec
  asks for it (rule R60, 93_implementation_defined.md I1): "No register changes and no defined value is returned". SAFE:
  the machine stops where a bus may go on (log 6). -/
  | undefinedAccess (addr size : Nat)
deriving DecidableEq, Repr

/-- Why a step is refused. -/
inductive Refusal where
  /-- An instruction that has no meaning in the model. Raised by no arm of `exec`: every instruction has its meaning.
  SAFE. -/
  | notModelled (mnemonic : String)
deriving DecidableEq, Repr

/-- The core of configuration `c` right after the release of the hard reset (rules R53, R131, R133), with no host access
and no turn to come (log 2). -/
def State.resetOf (c : Config) : State where
  cfg := c
  regs := Regs.reset c.W
  rst := false
  host := []
  sched := []
  rdata := []
  got := []
  free := 0

/-- The machine right after reset, at the reference configuration (rules R10, R53; log 1). -/
def State.reset : State := State.resetOf Config.reference

end Sys2Proof.Machine
end

