-- ==== Sys2Proof/Machine/Operands.lean ====
section
/-! DEFINITION. The numbers the registers stand for (rules R7, R11 to R16, R86, R87): two's complement, its range, the
exact operations floor quotient and non-negative modulo, and the limbs of a wide register. -/

namespace Sys2Proof.Machine

/-- `val(X)`: the signed integer a register content denotes, two's complement (rule R13). -/
def val {W : Nat} (x : BitVec W) : Int := x.toInt

/-- `enc(v) = v mod 2^W`: the content that denotes `v` (rule R13). -/
def enc (W : Nat) (v : Int) : BitVec W := BitVec.ofInt W v

/-- `MIN = -2^(W-1)` (rule R7). -/
def minVal (W : Nat) : Int := -2 ^ (W - 1)

/-- `MAX = 2^(W-1) - 1` (rule R7). -/
def maxVal (W : Nat) : Int := 2 ^ (W - 1) - 1

/-- The value lies in `[MIN, MAX]`, so a register can hold it (rule R12). -/
abbrev Fits (W : Nat) (v : Int) : Prop := minVal W ≤ v ∧ v ≤ maxVal W

/-- `fdiv(a, b)`: floor division, the greatest integer at most `a / b` (rule R14). -/
def fdiv (a b : Int) : Int := Int.fdiv a b

/-- `nnmod(a, m) = a - m * fdiv(a, m)`: the non-negative modulo (rule R14). -/
def nnmod (a m : Int) : Int := a - m * fdiv a m

/-- `|b|`, the absolute value (rule R14). -/
def absVal (b : Int) : Int := if b < 0 then -b else b

/-- `bitlen(e)`: the number of bits of `e`, with `bitlen(0) = 0` (rule R15). -/
def bitlen (e : Nat) : Nat := if e = 0 then 0 else Nat.log2 e + 1

/-- The operand in `OPA`, read as rule R86 says. -/
def State.valA (s : State) : Int := val s.regs.opa

/-- The operand in `OPB`, read as rule R86 says. -/
def State.valB (s : State) : Int := val s.regs.opb

/-- The operand in `OPC`, read as rule R86 says. -/
def State.valC (s : State) : Int := val s.regs.opc

/-- Limb `k` of a wide register: bits `[32k+31:32k]` (rule R31). -/
def limb {W : Nat} (x : BitVec W) (k : Nat) : Word := x.extractLsb' (32 * k) 32

/-- The bits of limb `k`, all ones (rule R31). -/
def limbMask (W k : Nat) : BitVec W := (BitVec.allOnes 32).setWidth W <<< (32 * k)

/-- The wide register with limb `k` replaced by `v` and "the other limbs unchanged" (rule R48). -/
def setLimb {W : Nat} (x : BitVec W) (k : Nat) (v : Word) : BitVec W :=
  (x &&& ~~~ limbMask W k) ||| (v.setWidth W <<< (32 * k))

/-- `Σ limb_k · 2^(32k)` over a list of limbs, limb 0 first (rule R86). -/
def limbSum : List Word → Nat
  | [] => 0
  | w :: ws => w.toNat + 2 ^ 32 * limbSum ws

/-- The `W`-bit content whose limbs are given, limb 0 first: `X = {limb_(L-1), ..., limb_1, limb_0}` (rule R86). -/
def ofLimbs (W : Nat) (ws : List Word) : BitVec W := BitVec.ofNat W (limbSum ws)

/-- `sext_32`: a 32-bit value sign-extended to `W` bits (rules R16, R87). -/
def sext32 (W : Nat) (v : Word) : BitVec W := v.signExtend W

/-- `zext_32`: a 32-bit value extended to `W` bits with zeros (rule R16). -/
def zext32 (W : Nat) (v : Word) : BitVec W := v.setWidth W

end Sys2Proof.Machine
end

