-- ==== Sys2Proof/Machine/Flags.lean ====
section
/-! DEFINITION. What a command hands to its completion (rules R17, R18): the list of register writes of a success or the
code of an error; the range check that yields `OVERFLOW` (rules R12, R111) and the comparison that yields the flags
(rules R46, R96). -/

namespace Sys2Proof.Machine

/-- The errors a command can end with (rule R110). -/
inductive ErrorCode where
  /-- An illegal `CMD` word (rule R115). -/
  | illegalCommand
  /-- The exact result does not fit (rule R111). -/
  | overflow
  /-- A zero divisor (rule R112). -/
  | divByZero
  /-- A modulus `<= 0` or a negative exponent (rule R113). -/
  | domain
  /-- `gcd(a, m) ≠ 1` (rule R114). -/
  | notInvertible
deriving DecidableEq, Repr

/-- The number of an error in `STATUS.ERRCODE` (rule R110). -/
def ErrorCode.code : ErrorCode → BitVec 4
  | .illegalCommand => 1
  | .overflow => 2
  | .divByZero => 3
  | .domain => 4
  | .notInvertible => 5

/-- One architectural write of a successful command (rules R17, R81). -/
inductive RegWrite (W : Nat) where
  /-- `RES0 <- x`. -/
  | res0 (x : BitVec W)
  /-- `RES1 <- x`. -/
  | res1 (x : BitVec W)
  /-- `STATUS.LT <- lt, STATUS.EQ <- eq, STATUS.GT <- gt`. -/
  | flags (lt eq gt : Bool)
deriving DecidableEq, Repr

/-- What `exec(op, OPA, OPB, OPC)` returns (rule R18). -/
inductive CommandResult (W : Nat) where
  /-- `return Ok(writes)`. -/
  | ok (writes : List (RegWrite W))
  /-- `raise Error(code)`. -/
  | error (code : ErrorCode)
deriving DecidableEq, Repr

/-- "`if v < MIN or v > MAX: raise Error(OVERFLOW)`; `return Ok(RES0 <- enc(v))`", the end of ADD, SUB and MUL (rules R94,
R95, R97): no wrap, no truncation (rule R12). -/
def exactResult (W : Nat) (v : Int) : CommandResult W :=
  if v < minVal W ∨ v > maxVal W then .error .overflow else .ok [.res0 (enc W v)]

/-- The exact signed comparison (rule R96). -/
def compareFlags (W : Nat) (a b : Int) : RegWrite W :=
  .flags (decide (a < b)) (decide (a = b)) (decide (a > b))

end Sys2Proof.Machine
end

