-- ==== Sys2Proof/Machine/Ops.lean ====
section
/-! DEFINITION. The operations every command and every host access is made of: the completion step (rule R118), taking an
error (rules R109, R118), accepting and dropping a START (rules R35, R50), the two resets (rules R131, R132). -/

namespace Sys2Proof.Machine

/-- Perform one write of a successful command (rules R17, R118). -/
def applyWrite {W : Nat} (r : Regs W) : RegWrite W → Regs W
  | .res0 x => { r with res0 := x }
  | .res1 x => { r with res1 := x }
  | .flags lt eq gt => { r with lt := lt, eq := eq, gt := gt }

/-- "perform every register or flag write in writes" (rule R118). -/
def applyWrites {W : Nat} (r : Regs W) (ws : List (RegWrite W)) : Regs W := ws.foldl applyWrite r

/-- TAKING AN ERROR, the one exception the hardware has (rules R109, R118): the code is recorded, no result or flag is
written, the command ends. There is no vector, no saved state and no return: "There is no trap return instruction and
nothing to restore" (rule R124). -/
def takeError {W : Nat} (c : ErrorCode) (r : Regs W) : Regs W :=
  { r with errcode := c.code, busy := false, done := true }

/-- A successful completion (rule R118): the writes, `ERRCODE <- 0`, `BUSY <- 0`, `DONE <- 1`. -/
def takeSuccess {W : Nat} (ws : List (RegWrite W)) (r : Regs W) : Regs W :=
  { applyWrites r ws with errcode := 0, busy := false, done := true }

/-- The completion step's effect on the architectural state (rule R118). -/
def finish {W : Nat} (r : Regs W) : CommandResult W → Regs W
  | .ok ws => takeSuccess ws r
  | .error c => takeError c r

/-- The completion of a command whose outcome is given, as one atomic step (rules R72, R118). It is enabled only while
busy; `coreTurn` sees to that (log 11). -/
def State.complete (s : State) (out : CommandResult s.cfg.W) : Host.Outcome State Fault Refusal :=
  .next { s with regs := finish s.regs out }

/-- An accepted START (rule R35): the core is busy, `DONE` and `ERRCODE` are cleared, all else is unchanged. -/
def acceptStart {W : Nat} (r : Regs W) : Regs W := { r with busy := true, done := false, errcode := 0 }

/-- A dropped write (rule R50): no effect on its target, `LOST <- 1`. -/
def dropWrite {W : Nat} (r : Regs W) : Regs W := { r with lost := true }

/-- The soft reset (rule R132): every component at its reset value, busy or idle. -/
def softReset {W : Nat} (_ : Regs W) : Regs W := Regs.reset W

/-- The hard reset input is asserted (rule R131): from now on the core takes no step and ignores host accesses. The
registers keep their content until the release (log 3). -/
def State.assertReset (s : State) : State := { s with rst := true }

/-- The hard reset input is released (rule R131): every component holds its reset value. Without an asserted input there
is nothing to release (log 14). -/
def State.releaseReset (s : State) : State :=
  if s.rst then { s with rst := false, regs := Regs.reset s.cfg.W } else s

/-- The output line: `IRQ = CTRL.IEN ∧ STATUS.DONE` at all times (rule R52). -/
def State.irq (s : State) : Bool := s.regs.ien && s.regs.done

end Sys2Proof.Machine
end

