-- ==== Sys2Proof/Machine/Bus.lean ====
section
/-! DEFINITION. The register window (rules R30 to R52, R57 to R66): address decode, the word each offset reads as, what a
write to each offset does, and one host access as a step. -/

namespace Sys2Proof.Machine

/-- The five wide registers that stand in the window as limbs (rule R31). -/
inductive WideReg where
  | opa
  | opb
  | opc
  | res0
  | res1
deriving DecidableEq, Repr

/-- `XB`, the offset of the window of a wide register (rule R31). -/
def WideReg.start : WideReg → Nat
  | .opa => 0x100
  | .opb => 0x200
  | .opc => 0x300
  | .res0 => 0x400
  | .res1 => 0x500

/-- The content of a wide register. -/
def Regs.wide {W : Nat} (r : Regs W) : WideReg → BitVec W
  | .opa => r.opa
  | .opb => r.opb
  | .opc => r.opc
  | .res0 => r.res0
  | .res1 => r.res1

/-- Whether the host may write it: the operand registers, not the result registers (rules R24, R25). -/
def WideReg.isOperand : WideReg → Bool
  | .opa => true
  | .opb => true
  | .opc => true
  | .res0 => false
  | .res1 => false

/-- Store into an operand register; the result registers are not the host's to write (rules R25, R48). -/
def Regs.setOperand {W : Nat} (r : Regs W) (x : WideReg) (v : BitVec W) : Regs W :=
  match x with
  | .opa => { r with opa := v }
  | .opb => { r with opb := v }
  | .opc => { r with opc := v }
  | .res0 => r
  | .res1 => r

/-- What stands at an offset of the window (rule R30). -/
inductive Target where
  | info
  | ctrl
  | cmd
  | status
  /-- Limb `k` of a wide register, `k < L` (rule R31). -/
  | limb (x : WideReg) (k : Nat)
  /-- A reserved offset (rule R32) or an unused limb, `L <= k` (rule R31). -/
  | reserved
deriving DecidableEq, Repr

/-- Limb `k` of `x` if the register has so many, else nothing (rule R31). -/
def limbTarget (W : Nat) (x : WideReg) (k : Nat) : Target := if k < W / 32 then .limb x k else .reserved

/-- The register map of rule R30, on the offset of an aligned access. -/
def decodeOffset (W off : Nat) : Target :=
  if off = 0x000 then .info
  else if off = 0x004 then .ctrl
  else if off = 0x008 then .cmd
  else if off = 0x00C then .status
  else if off < 0x100 then .reserved
  else if off < 0x200 then limbTarget W .opa ((off - 0x100) / 4)
  else if off < 0x300 then limbTarget W .opb ((off - 0x200) / 4)
  else if off < 0x400 then limbTarget W .opc ((off - 0x300) / 4)
  else if off < 0x500 then limbTarget W .res0 ((off - 0x400) / 4)
  else if off < 0x600 then limbTarget W .res1 ((off - 0x500) / 4)
  else .reserved

/-- The word `INFO` (rule R33): `REV = 1` in bits 23 to 16, `LIMBS = L` in bits 15 to 0. -/
def infoWord (W : Nat) : Word := 0#8 ++ 0x01#8 ++ BitVec.ofNat 16 (W / 32)

/-- The word `CTRL` reads as: `{29'b0, IEN, 1'b0, 1'b0}` (rule R34). -/
def ctrlWord {W : Nat} (r : Regs W) : Word := 0#29 ++ BitVec.ofBool r.ien ++ 0#1 ++ 0#1

/-- The derived bit `STATUS.ERR` (rule R43). -/
def Regs.err {W : Nat} (r : Regs W) : Bool := r.errcode != 0

/-- The word `STATUS` reads as (rule R40), bit 31 first. -/
def statusWord {W : Nat} (r : Regs W) : Word :=
  0#21 ++ BitVec.ofBool r.gt ++ BitVec.ofBool r.eq ++ BitVec.ofBool r.lt ++ r.errcode ++ BitVec.ofBool r.lost
    ++ BitVec.ofBool r.err ++ BitVec.ofBool r.done ++ BitVec.ofBool r.busy

/-- The word a target reads as (rules R32 to R34, R39, R40, R49). -/
def readTarget {W : Nat} (r : Regs W) : Target → Word
  | .info => infoWord W
  | .ctrl => ctrlWord r
  | .cmd => r.cmd
  | .status => statusWord r
  | .limb x k => limb (r.wide x) k
  | .reserved => 0

/-- The word an aligned offset reads as. A read changes nothing (rule R65). -/
def readOffset {W : Nat} (r : Regs W) (off : Nat) : Word := readTarget r (decodeOffset W off)

/-- A write to `CTRL` (rules R35 to R38, R50). Bit 1 resets and nothing else of the write counts (rule R36); else bit 2
becomes `IEN` (rule R37) and bit 0 starts the command, or is dropped while busy (rule R35). -/
def writeCtrl {W : Nat} (r : Regs W) (v : Word) : Regs W :=
  if v.getLsbD 1 then softReset r
  else if v.getLsbD 0 then
    if r.busy then { dropWrite r with ien := v.getLsbD 2 } else { acceptStart r with ien := v.getLsbD 2 }
  else { r with ien := v.getLsbD 2 }

/-- A write to `CMD`: stored whole, or dropped while busy (rules R39, R50). -/
def writeCmd {W : Nat} (r : Regs W) (v : Word) : Regs W :=
  if r.busy then dropWrite r else { r with cmd := v }

/-- A write to `STATUS`: bit 1 clears `DONE`, bit 3 clears `LOST`, busy or idle (rule R47). -/
def writeStatus {W : Nat} (r : Regs W) (v : Word) : Regs W :=
  { r with done := r.done && !v.getLsbD 1, lost := r.lost && !v.getLsbD 3 }

/-- A write to a limb: an operand's is stored, or dropped while busy (rules R48, R50); a result's is ignored
(rule R51). -/
def writeLimb {W : Nat} (r : Regs W) (x : WideReg) (k : Nat) (v : Word) : Regs W :=
  if x.isOperand then
    if r.busy then dropWrite r else r.setOperand x (setLimb (r.wide x) k v)
  else r

/-- A write to a target (rules R32, R33, R66). -/
def writeTarget {W : Nat} (r : Regs W) (v : Word) : Target → Regs W
  | .info => r
  | .ctrl => writeCtrl r v
  | .cmd => writeCmd r v
  | .status => writeStatus r v
  | .limb x k => writeLimb r x k v
  | .reserved => r

/-- A write to an aligned offset (rules R30, R66). -/
def writeOffset {W : Nat} (r : Regs W) (off : Nat) (v : Word) : Regs W := writeTarget r v (decodeOffset W off)

/-- How an access of `size` bytes at `addr` meets the window. -/
inductive Access where
  /-- It touches no byte of the window: the core does not respond (rule R57). -/
  | outside
  /-- It touches the window but is not an aligned 32-bit access (rule R60). -/
  | undefined
  /-- A defined access at this offset (rules R58 to R60). -/
  | defined (off : Nat)
deriving DecidableEq, Repr

/-- Address decode (rules R57 to R60). An access that starts below the window and runs into it is undefined (log 6). -/
def classify (c : Config) (addr size : Nat) : Access :=
  if InWindow c addr then
    if size = 4 ∧ (addr - c.base) % 4 = 0 then .defined (addr - c.base) else .undefined
  else if addr < c.base ∧ c.base < addr + size then .undefined
  else .outside

/-- `MemRead(addr, size)` (rules R49, R57 to R60, R65). Under an asserted reset the value is free
(93_implementation_defined.md I9; log 4); outside the window no answer comes from the core (log 5). -/
def busRead (s : State) (addr size : Nat) : Host.Outcome State Fault Refusal :=
  match classify s.cfg addr size with
  | .outside => .next { s with rdata := none :: s.rdata }
  | .undefined => .fault (.undefinedAccess addr size)
  | .defined off =>
    if s.rst then .next { s with rdata := some (Config.freeWord s.free) :: s.rdata, free := s.free + 1 }
    else .next { s with rdata := some (readOffset s.regs off) :: s.rdata }

/-- `MemWrite(addr, size, v)` (rules R57 to R60, R66). Under an asserted reset it is ignored (rule R131). -/
def busWrite (s : State) (addr size : Nat) (v : Word) : Host.Outcome State Fault Refusal :=
  match classify s.cfg addr size with
  | .outside => .next s
  | .undefined => .fault (.undefinedAccess addr size)
  | .defined off => if s.rst then .next s else .next { s with regs := writeOffset s.regs off v }

/-- The byte address of `STATUS` (rule R30). -/
def statusAddr (c : Config) : Nat := c.base + 0x00C

/-- Whether the word a poll returned, the newest of the words read, has bit 0 set (rule R90). -/
def polledBusy : List (Option Word) → Bool
  | some w :: _ => w.getLsbD 0
  | _ => false

/-- One pass of `wait` (rule R90): read `STATUS`; while bit 0 is 1 the loop stays at the head of the host's queue
(log 15). -/
def hostWait (s : State) (rest : List HostOp) : Host.Outcome State Fault Refusal :=
  match busRead s (statusAddr s.cfg) 4 with
  | .next t => if polledBusy t.rdata then .next t else .next { t with host := rest }
  | .fault f => .fault f
  | .refused r => .refused r

/-- The `n` words read last, the oldest of them first, if the host's reads returned so many (rule R88). -/
def lastWords : Nat → List (Option Word) → Option (List Word)
  | 0, _ => some []
  | n + 1, some w :: older => (lastWords n older).map (· ++ [w])
  | _ + 1, _ => none

/-- `r := val(X)` at the end of `get X -> r`: the host has read the `L` limbs of `X`, the lowest first, and "forms
`val(RES0)` by rule R86" (rules R88, R90). Without `L` words read there is no value to form (log 18). -/
def hostCollect (s : State) (rest : List HostOp) : State :=
  match lastWords s.cfg.limbs s.rdata with
  | some ws => { s with host := rest, got := val (ofLimbs s.cfg.W ws) :: s.got }
  | none => { s with host := rest }

/-- The host's turn (rule R21): its next access or its own next operation, if it has one. -/
def hostTurn (s : State) : Host.Outcome State Fault Refusal :=
  match s.host with
  | [] => .next s
  | .read addr size :: rest => busRead { s with host := rest } addr size
  | .write addr size v :: rest => busWrite { s with host := rest } addr size v
  | .wait :: rest => hostWait s rest
  | .collect :: rest => .next (hostCollect s rest)

end Sys2Proof.Machine
end

