-- ==== Sys2Proof/Machine/HostProgram.lean ====
section
/-! DEFINITION. The host-program notation (rules R89 to R91): each pseudo-instruction as the accesses it stands
for, with the host's own branch (`wait`) and assignment (`collect`). -/

namespace Sys2Proof.Machine

/-- `rd` at an offset (rule R89). -/
def rd (c : Config) (off : Nat) : HostOp := .read (c.base + off) 4

/-- `wr` at an offset (rule R89). -/
def wr (c : Config) (off : Nat) (v : Word) : HostOp := .write (c.base + off) 4 v

/-- The offset of limb `k` of a wide register: `XB + 4k` (rules R31, R89). -/
def limbOffset (x : WideReg) (k : Nat) : Nat := x.start + 4 * k

/-- `ld X, v`: write the limbs of `enc(v)`, the lowest first (rules R87, R90). -/
def ld (c : Config) (x : WideReg) (v : Int) : List HostOp :=
  (List.range c.limbs).map fun k => wr c (limbOffset x k) (limb (enc c.W v) k)

/-- `go`: START with `IEN = 0` (rule R90). -/
def go (c : Config) : HostOp := wr c 0x004 0x1

/-- `goi`: START with `IEN = 1` (rule R90). -/
def goi (c : Config) : HostOp := wr c 0x004 0x5

/-- `run M`: write `CMD`, start, wait (rules R90, R91). -/
def run (c : Config) (word : Word) : List HostOp := [wr c 0x008 word, go c, .wait]

/-- `runi M`: the same with the interrupt enabled (rule R90). -/
def runi (c : Config) (word : Word) : List HostOp := [wr c 0x008 word, goi c, .wait]

/-- The reads of `get X`: the limbs of `X`, the lowest first (rules R88, R90). -/
def readLimbs (c : Config) (x : WideReg) : List HostOp := (List.range c.limbs).map fun k => rd c (limbOffset x k)

/-- `get X -> r`: read the limbs, then `r := val(X)` (rules R88, R90; `r` is the newest value of `State.got`, log 18). -/
def get (c : Config) (x : WideReg) : List HostOp := readLimbs c x ++ [.collect]

/-- `ack`: clear `DONE` and `LOST` (rule R90). -/
def ack (c : Config) : HostOp := wr c 0x00C 0x0000000A

/-- `srst`: the soft reset (rule R90). -/
def srst (c : Config) : HostOp := wr c 0x004 0x2

end Sys2Proof.Machine
end

