-- ==== Sys2Proof/Machine/AddSub.lean ====
section
/-! DEFINITION. The bigint_adder and bigint_subtractor units: ADD, SUB, CMP (rules R93 to R96). -/

namespace Sys2Proof.Machine

/-- ADD (rule R94): the exact sum `a + b`, or `OVERFLOW`. -/
def addCommand (W : Nat) (a b : Int) : CommandResult W := exactResult W (a + b)

/-- SUB (rule R95): the exact difference `a - b`, or `OVERFLOW`. -/
def subCommand (W : Nat) (a b : Int) : CommandResult W := exactResult W (a - b)

/-- CMP (rule R96): the three flags; no register; never an error. -/
def cmpCommand (W : Nat) (a b : Int) : CommandResult W := .ok [compareFlags W a b]

/-- The completion of ADD (rules R94, R118). -/
def execAdd (s : State) : Host.Outcome State Fault Refusal := s.complete (addCommand s.cfg.W s.valA s.valB)

/-- The completion of SUB (rules R95, R118). -/
def execSub (s : State) : Host.Outcome State Fault Refusal := s.complete (subCommand s.cfg.W s.valA s.valB)

/-- The completion of CMP (rules R96, R118). -/
def execCmp (s : State) : Host.Outcome State Fault Refusal := s.complete (cmpCommand s.cfg.W s.valA s.valB)

end Sys2Proof.Machine
end

