-- ==== Sys2Proof/Machine/Divider.lean ====
section
/-! DEFINITION. The bigint_divider_modulo unit: DIV, MOD, DIVMOD (rules R98 to R101). The quotient is the floor quotient
and the remainder the non-negative one at every sign combination (rule R98; 90_conflicts.md C1). -/

namespace Sys2Proof.Machine

/-- DIV (rule R99). -/
def divCommand (W : Nat) (a b : Int) : CommandResult W :=
  if b = 0 then .error .divByZero
  else if fdiv a b > maxVal W then .error .overflow
  else .ok [.res0 (enc W (fdiv a b))]

/-- MOD (rule R100). -/
def modCommand (W : Nat) (a b : Int) : CommandResult W :=
  if b = 0 then .error .divByZero else .ok [.res0 (enc W (nnmod a (absVal b)))]

/-- DIVMOD (rule R101): quotient and remainder in one completion; an overflow discards both. -/
def divmodCommand (W : Nat) (a b : Int) : CommandResult W :=
  if b = 0 then .error .divByZero
  else if fdiv a b > maxVal W then .error .overflow
  else .ok [.res0 (enc W (fdiv a b)), .res1 (enc W (nnmod a (absVal b)))]

/-- The completion of DIV (rules R99, R118). -/
def execDiv (s : State) : Host.Outcome State Fault Refusal := s.complete (divCommand s.cfg.W s.valA s.valB)

/-- The completion of MOD (rules R100, R118). -/
def execMod (s : State) : Host.Outcome State Fault Refusal := s.complete (modCommand s.cfg.W s.valA s.valB)

/-- The completion of DIVMOD (rules R101, R118). -/
def execDivmod (s : State) : Host.Outcome State Fault Refusal := s.complete (divmodCommand s.cfg.W s.valA s.valB)

end Sys2Proof.Machine
end

