-- ==== Sys2Proof/Machine/Inverse.lean ====
section
/-! DEFINITION. The extended_euclid_inverse unit: INV (rules R102 to R104), by the loop of rule R102's pseudocode. That its
result is the inverse is a statement about the model, not its definition. -/

namespace Sys2Proof.Machine

/-- The running values of the loop (rules R29, R102): two remainders and the two coefficients tracked for `a`. -/
structure Euclid where
  /-- `old_r`. -/
  oldR : Int
  /-- `r`. -/
  r : Int
  /-- `old_s`. -/
  oldS : Int
  /-- `s`. -/
  s : Int
deriving DecidableEq, Repr

/-- The values before the first pass: `(old_r, r) := (a0, m)`, `(old_s, s) := (1, 0)` (rule R102). -/
def Euclid.start (a0 m : Int) : Euclid := { oldR := a0, r := m, oldS := 1, s := 0 }

/-- One pass of the loop body, with `q := fdiv(old_r, r)` (rule R102). -/
def euclidPass (e : Euclid) : Euclid :=
  { oldR := e.r, r := e.oldR - fdiv e.oldR e.r * e.r, oldS := e.s, s := e.oldS - fdiv e.oldR e.r * e.s }

/-- `while r != 0`: at most `n` passes (rule R102). -/
def euclidLoop : Nat → Euclid → Euclid
  | 0, e => e
  | n + 1, e => if e.r = 0 then e else euclidLoop n (euclidPass e)

/-- The loop run to its end. `m` passes are enough, since the remainder falls in each pass from `m` on (rule R103). -/
def euclid (a0 m : Int) : Euclid := euclidLoop m.toNat (Euclid.start a0 m)

/-- INV (rule R102). -/
def invCommand (W : Nat) (a m : Int) : CommandResult W :=
  if m ≤ 0 then .error .domain
  else
    if (euclid (nnmod a m) m).oldR ≠ 1 then .error .notInvertible
    else
      if (euclid (nnmod a m) m).oldS < 0 then .ok [.res0 (enc W ((euclid (nnmod a m) m).oldS + m))]
      else .ok [.res0 (enc W (euclid (nnmod a m) m).oldS)]

/-- The completion of INV (rules R102, R118). -/
def execInv (s : State) : Host.Outcome State Fault Refusal := s.complete (invCommand s.cfg.W s.valA s.valB)

end Sys2Proof.Machine
end

