-- ==== Sys2Proof/Machine/Multiplier.lean ====
section
/-! DEFINITION. The bigint_multiplier unit: MUL (rule R97). -/

namespace Sys2Proof.Machine

/-- MUL (rule R97): the exact product `a * b`, or `OVERFLOW`; there is no high half. -/
def mulCommand (W : Nat) (a b : Int) : CommandResult W := exactResult W (a * b)

/-- The completion of MUL (rules R97, R118). -/
def execMul (s : State) : Host.Outcome State Fault Refusal := s.complete (mulCommand s.cfg.W s.valA s.valB)

end Sys2Proof.Machine
end

