-- ==== Sys2Proof/Machine/PowMod.lean ====
section
/-! DEFINITION. The modular_exponentiation_engine unit: POWMOD (rules R105 to R108), by the square-and-multiply loop of
rule R105's pseudocode. That its result is the power is a statement about the model, not its definition. -/

namespace Sys2Proof.Machine

/-- The running values of the loop (rules R29, R105). -/
structure Power where
  /-- `acc`. -/
  acc : Int
  /-- `b`. -/
  b : Int
  /-- `k`. -/
  k : Int
deriving DecidableEq, Repr

/-- The values before the first pass (rule R105): `acc := nnmod(1, m)`, `b := nnmod(base, m)`, `k := e`. -/
def Power.start (base e m : Int) : Power := { acc := nnmod 1 m, b := nnmod base m, k := e }

/-- One pass of the loop body: a multiplication if the low bit of `k` is 1, a squaring, a halving (rule R105). -/
def powPass (m : Int) (p : Power) : Power :=
  { acc := if nnmod p.k 2 = 1 then nnmod (p.acc * p.b) m else p.acc,
    b := nnmod (p.b * p.b) m,
    k := fdiv p.k 2 }

/-- `while k > 0`: at most `n` passes (rule R105). -/
def powLoop (m : Int) : Nat → Power → Power
  | 0, p => p
  | n + 1, p => if p.k > 0 then powLoop m n (powPass m p) else p

/-- The loop run to its end: one pass per bit of the exponent (rule R106). -/
def power (base e m : Int) : Int := (powLoop m (bitlen e.toNat) (Power.start base e m)).acc

/-- POWMOD (rule R105). -/
def powmodCommand (W : Nat) (base e m : Int) : CommandResult W :=
  if m ≤ 0 ∨ e < 0 then .error .domain else .ok [.res0 (enc W (power base e m))]

/-- The completion of POWMOD (rules R105, R118). -/
def execPowmod (s : State) : Host.Outcome State Fault Refusal :=
  s.complete (powmodCommand s.cfg.W s.valA s.valB s.valC)

end Sys2Proof.Machine
end

