-- ==== Sys2Proof/Machine/Dispatch.lean ====
section
/-! DEFINITION. One arm per command (rules R82, R118): the effect of the command's completion step. -/

namespace Sys2Proof.Machine

def exec (i : Instr) (s : State) : Host.Outcome State Fault Refusal :=
  match i with
  | .add => Sys2Proof.Machine.execAdd s
  | .sub => Sys2Proof.Machine.execSub s
  | .mul => Sys2Proof.Machine.execMul s
  | .div => Sys2Proof.Machine.execDiv s
  | .mod => Sys2Proof.Machine.execMod s
  | .divmod => Sys2Proof.Machine.execDivmod s
  | .cmp => Sys2Proof.Machine.execCmp s
  | .inv => Sys2Proof.Machine.execInv s
  | .powmod => Sys2Proof.Machine.execPowmod s

end Sys2Proof.Machine
end

