-- ==== Sys2Proof/Machine/Turns.lean ====
section
/-! DEFINITION. One turn of each agent (rules R21, R118, R131): the completion of the command in `CMD`, the host's access,
the reset input; and who moves when nothing says so (rule R145). -/

namespace Sys2Proof.Machine

/-- The completion step (rule R118): an illegal word ends with `ILLEGAL_COMMAND` (rule R115), a legal one runs its
command. -/
def completion (s : State) : Host.Outcome State Fault Refusal :=
  match decodeWord s.regs.cmd with
  | .ok i => exec i s
  | .error _ => s.complete (.error .illegalCommand)

/-- The core's turn: its only step is the completion, "enabled exactly when `STATUS.BUSY = 1`" (rule R118) and never while
the reset input is asserted (rule R131); else it does nothing (log 14). -/
def coreTurn (s : State) : Host.Outcome State Fault Refusal :=
  if s.regs.busy && !s.rst then completion s else .next s

/-- One turn (rule R21). -/
def takeTurn (t : Turn) (s : State) : Host.Outcome State Fault Refusal :=
  match t with
  | .host => hostTurn s
  | .core => coreTurn s
  | .assertReset => .next s.assertReset
  | .releaseReset => .next s.releaseReset

/-- Who moves when the list of turns is used up: the eager schedule, in which a command in progress completes before the
next host access (95_test_vectors.md section 3). So every command completes in the end (rule R145; log 2). -/
def defaultTurn (s : State) : Turn := if s.regs.busy && !s.rst then .core else .host

/-- `s` with a command word in `CMD`, accepted, and the core's turn next: what a host's write of `CMD` and START leave when
the completion is the next step (rules R35, R39; log 9). -/
def loadCommand (s : State) (word : Word) : State :=
  { s with regs := acceptStart { s.regs with cmd := word }, rst := false, sched := .core :: s.sched }

end Sys2Proof.Machine
end

