-- ==== Sys2Proof/Machine/Step.lean ====
section
/-! DEFINITION. One step of the machine (rules R21, R70): the next turn of the schedule, taken whole. -/

namespace Sys2Proof.Machine

/-- One step: the turn at the head of the schedule, or the eager one when the schedule is used up. -/
def step (s : State) : Host.Outcome State Fault Refusal :=
  match s.sched with
  | [] => takeTurn (defaultTurn s) s
  | t :: ts => takeTurn t { s with sched := ts }

/-- `s` with the command word of an opcode-table row in progress, so that the very next step runs it (log 9). -/
def State.withFetchWord (s : State) (nbits w : Nat) : State := loadCommand s (tableWord nbits w)

end Sys2Proof.Machine
end

