-- ==== Sys2Proof/Safety.lean ====
section
/-! DEFINITION. What a safe run is, in the terms the statements use: the invariant of the architectural state and the host's
duty never to leave the contract (rules R42, R46, R110, R129). -/

namespace Sys2Proof.Machine

/-- What the spec says of the architectural state at every moment: `BUSY = 1` implies `DONE = 0` (rule R42) and
`ERRCODE = 0` (rules R35, R45); a code above 5 is never produced (rule R110, 93_implementation_defined.md I6); at most one
of the three comparison flags is set (rule R46). -/
structure Regs.Consistent {W : Nat} (r : Regs W) : Prop where
  busy_not_done : r.busy = true → r.done = false
  busy_no_error : r.busy = true → r.errcode = 0
  code_le_five : r.errcode.toNat ≤ 5
  flags_exclusive : r.lt.toNat + r.eq.toNat + r.gt.toNat ≤ 1

/-- The invariant of the machine: a legal configuration (rules R6, R8) and a consistent architectural state. -/
def State.Inv (s : State) : Prop := s.cfg.WellFormed ∧ s.regs.Consistent

/-- A host operation within the contract: an access the core defines, or one it does not respond to at all (rules R57,
R60). A `wait` reads `STATUS`, a defined access; a `collect` makes no access. -/
def HostOp.InContract (c : Config) : HostOp → Prop
  | .read addr size => classify c addr size ≠ .undefined
  | .write addr size _ => classify c addr size ≠ .undefined
  | .wait => True
  | .collect => True

/-- A host operation that is no soft reset (rules R36, R132). -/
def HostOp.NoSoftReset (c : Config) : HostOp → Prop
  | .write addr size v => classify c addr size = .defined 0x004 → v.getLsbD 1 = false
  | .read _ _ => True
  | .wait => True
  | .collect => True

/-- A turn that does not move the hard reset input (rule R131). -/
def Turn.NoReset : Turn → Prop
  | .host => True
  | .core => True
  | .assertReset => False
  | .releaseReset => False

/-- "every execution in which no reset occurs" (rule R145), and in which the host keeps to the contract (rule R129). -/
structure State.ResetFree (s : State) : Prop where
  not_asserted : s.rst = false
  turns : ∀ t ∈ s.sched, t.NoReset
  contract : ∀ op ∈ s.host, op.InContract s.cfg
  no_soft_reset : ∀ op ∈ s.host, op.NoSoftReset s.cfg

/-- A safe state of the machine: the invariant holds and the host keeps to the contract. -/
def State.Safe (s : State) : Prop := s.Inv ∧ ∀ op ∈ s.host, op.InContract s.cfg

end Sys2Proof.Machine
end

