-- ==== Sys2Proof/Certificates/Slice0/Obligations.lean ====
section
/-! DEFINITION. The statements about RSAC, for the provers. Each formalises rules of spec/; OBLIGATIONS.json lists them.
In a statement `a`, `b` stand for the signed operands, and a record update of the state says the whole next state: what it
does not name is unchanged. -/

open Sys2Proof Sys2Proof.Machine

/-! ### Numbers and encoding (00_scope.md, 30_encoding.md) -/

/-- Rule R13: two's complement, both ways. -/
def Obligations.TwosComplementValue : Prop :=
  ∀ W : Nat, 0 < W →
    (∀ x : BitVec W, val x = if x.getLsbD (W - 1) then (x.toNat : Int) - 2 ^ W else (x.toNat : Int)) ∧
    (∀ v : Int, Fits W v → ((enc W v).toNat : Int) = v % 2 ^ W ∧ val (enc W v) = v)

/-- Rule R14: `fdiv` is the greatest integer at most the rational quotient, `nnmod` the non-negative modulo. -/
def Obligations.FloorQuotientAndModulo : Prop :=
  (∀ a b : Int, b ≠ 0 →
    ((fdiv a b : ℚ) ≤ (a : ℚ) / (b : ℚ)) ∧ ∀ q : Int, (q : ℚ) ≤ (a : ℚ) / (b : ℚ) → q ≤ fdiv a b) ∧
  (∀ a m : Int, 1 ≤ m → nnmod a m = a - m * fdiv a m ∧ 0 ≤ nnmod a m ∧ nnmod a m < m) ∧
  (∀ b : Int, absVal b = |b|)

/-- Rule R86: a wide register is the sum of its limbs by weight, and a command reads the signed integer it denotes. -/
def Obligations.RegisterIsTheSumOfItsLimbs : Prop :=
  (∀ (W : Nat) (x : BitVec W), W % 32 = 0 →
    x.toNat = ∑ k ∈ Finset.range (W / 32), (limb x k).toNat * 2 ^ (32 * k)) ∧
  (∀ s : State, s.valA = val s.regs.opa ∧ s.valB = val s.regs.opb ∧ s.valC = val s.regs.opc)

/-- Rule R61: byte lanes and limbs are little-endian. -/
def Obligations.LittleEndianLanesAndLimbs : Prop :=
  (∀ (w : Word) (j i : Nat), j < 4 → i < 8 → (byteLane w j).getLsbD i = w.getLsbD (8 * j + i)) ∧
  (∀ w : Word, wordBytes w = [byteLane w 0, byteLane w 1, byteLane w 2, byteLane w 3] ∧
    wordOfLanes (byteLane w 0) (byteLane w 1) (byteLane w 2) (byteLane w 3) = w) ∧
  (∀ (W : Nat) (x : BitVec W) (k i : Nat), i < 32 → (limb x k).getLsbD i = x.getLsbD (32 * k + i))

/-- Rule R82: the opcode map, word by word. -/
def Obligations.OpcodeMapWords : Prop :=
  decodeWord 0x00000001#32 = .ok .add ∧ decodeWord 0x00000002#32 = .ok .sub ∧
  decodeWord 0x00000003#32 = .ok .mul ∧ decodeWord 0x00000004#32 = .ok .div ∧
  decodeWord 0x00000005#32 = .ok .mod ∧ decodeWord 0x00000006#32 = .ok .divmod ∧
  decodeWord 0x00000007#32 = .ok .cmp ∧ decodeWord 0x00000008#32 = .ok .inv ∧
  decodeWord 0x00000009#32 = .ok .powmod ∧
  ∀ w ∈ [0x0#32, 0xA#32, 0xB#32, 0xC#32, 0xD#32, 0xE#32, 0xF#32], decodeWord w = .error .reservedOpcode

/-- Decode and encode agree, on words and on bytes. -/
def Obligations.DecodeOfEncode : Prop :=
  ∀ (i : Instr) (rest : List Byte),
    decodeWord (encode i) = .ok i ∧ decodeBytes (encodeBytes i ++ rest) = .ok (i, rest) ∧ LegalWord (encode i)

/-- Each command has one word: a word that decodes is the encoding of what it decodes to. -/
def Obligations.EncodeOfDecode : Prop :=
  ∀ (w : Word) (i : Instr), decodeWord w = .ok i → w = encode i

/-- Rules R83 and R115: legality, and what an illegal word does: accepted by START whatever `CMD` holds, ended at the
completion by `ILLEGAL_COMMAND` with nothing but `STATUS` changed. -/
def Obligations.IllegalWordsFailAtCompletion : Prop :=
  (∀ w : Word, (∃ i, decodeWord w = .ok i) ↔ LegalWord w) ∧
  (∀ (W : Nat) (r : Regs W), r.busy = false → (writeOffset r 0x004 0x1).busy = true) ∧
  (∀ s : State, ¬ LegalWord s.regs.cmd →
    completion s = .next { s with regs := { s.regs with errcode := 1, busy := false, done := true } })

/-! ### The commands (40 to 44) -/

/-- Rule R94. -/
def Obligations.AddExactOrOverflow : Prop :=
  decodeWord 0x00000001#32 = .ok .add ∧
  ∀ s : State,
    (Fits s.cfg.W (s.valA + s.valB) →
      exec .add s = .next { s with regs := { s.regs with
        res0 := enc s.cfg.W (s.valA + s.valB), errcode := 0, busy := false, done := true } } ∧
      (s.cfg.WellFormed → val (enc s.cfg.W (s.valA + s.valB)) = s.valA + s.valB)) ∧
    (¬ Fits s.cfg.W (s.valA + s.valB) →
      exec .add s = .next { s with regs := { s.regs with errcode := 2, busy := false, done := true } })

/-- Rule R95. -/
def Obligations.SubExactOrOverflow : Prop :=
  decodeWord 0x00000002#32 = .ok .sub ∧
  ∀ s : State,
    (Fits s.cfg.W (s.valA - s.valB) →
      exec .sub s = .next { s with regs := { s.regs with
        res0 := enc s.cfg.W (s.valA - s.valB), errcode := 0, busy := false, done := true } } ∧
      (s.cfg.WellFormed → val (enc s.cfg.W (s.valA - s.valB)) = s.valA - s.valB)) ∧
    (¬ Fits s.cfg.W (s.valA - s.valB) →
      exec .sub s = .next { s with regs := { s.regs with errcode := 2, busy := false, done := true } })

/-- Rule R97. -/
def Obligations.MulExactOrOverflow : Prop :=
  decodeWord 0x00000003#32 = .ok .mul ∧
  ∀ s : State,
    (Fits s.cfg.W (s.valA * s.valB) →
      exec .mul s = .next { s with regs := { s.regs with
        res0 := enc s.cfg.W (s.valA * s.valB), errcode := 0, busy := false, done := true } } ∧
      (s.cfg.WellFormed → val (enc s.cfg.W (s.valA * s.valB)) = s.valA * s.valB)) ∧
    (¬ Fits s.cfg.W (s.valA * s.valB) →
      exec .mul s = .next { s with regs := { s.regs with errcode := 2, busy := false, done := true } })

/-- Rule R96: the three flags, exactly one of them set, and nothing else but the end of the command. -/
def Obligations.CmpSetsExactlyOneFlag : Prop :=
  decodeWord 0x00000007#32 = .ok .cmp ∧
  ∀ s : State, ∃ lt eq gt : Bool,
    exec .cmp s = .next { s with regs := { s.regs with
      lt := lt, eq := eq, gt := gt, errcode := 0, busy := false, done := true } } ∧
    (lt = true ↔ s.valA < s.valB) ∧ (eq = true ↔ s.valA = s.valB) ∧ (gt = true ↔ s.valA > s.valB) ∧
    lt.toNat + eq.toNat + gt.toNat = 1

/-- Rule R99: the floor quotient, which overflows at `MIN / -1` only. -/
def Obligations.DivFloorQuotient : Prop :=
  decodeWord 0x00000004#32 = .ok .div ∧
  ∀ s : State, s.cfg.WellFormed →
    (s.valB = 0 →
      exec .div s = .next { s with regs := { s.regs with errcode := 3, busy := false, done := true } }) ∧
    (s.valA = minVal s.cfg.W ∧ s.valB = -1 →
      exec .div s = .next { s with regs := { s.regs with errcode := 2, busy := false, done := true } }) ∧
    (s.valB ≠ 0 ∧ ¬ (s.valA = minVal s.cfg.W ∧ s.valB = -1) →
      exec .div s = .next { s with regs := { s.regs with
        res0 := enc s.cfg.W (fdiv s.valA s.valB), errcode := 0, busy := false, done := true } } ∧
      val (enc s.cfg.W (fdiv s.valA s.valB)) = fdiv s.valA s.valB)

/-- Rule R100: the non-negative remainder; MOD never overflows. -/
def Obligations.ModNonNegativeRemainder : Prop :=
  decodeWord 0x00000005#32 = .ok .mod ∧
  ∀ s : State, s.cfg.WellFormed →
    (s.valB = 0 →
      exec .mod s = .next { s with regs := { s.regs with errcode := 3, busy := false, done := true } }) ∧
    (s.valB ≠ 0 →
      exec .mod s = .next { s with regs := { s.regs with
        res0 := enc s.cfg.W (nnmod s.valA |s.valB|), errcode := 0, busy := false, done := true } } ∧
      0 ≤ nnmod s.valA |s.valB| ∧ nnmod s.valA |s.valB| < |s.valB| ∧
      val (enc s.cfg.W (nnmod s.valA |s.valB|)) = nnmod s.valA |s.valB|)

/-- Rule R101: both results in one completion, or neither. -/
def Obligations.DivmodBothOrNeither : Prop :=
  decodeWord 0x00000006#32 = .ok .divmod ∧
  ∀ s : State, s.cfg.WellFormed →
    (s.valB = 0 →
      exec .divmod s = .next { s with regs := { s.regs with errcode := 3, busy := false, done := true } }) ∧
    (s.valA = minVal s.cfg.W ∧ s.valB = -1 →
      exec .divmod s = .next { s with regs := { s.regs with errcode := 2, busy := false, done := true } }) ∧
    (s.valB ≠ 0 ∧ ¬ (s.valA = minVal s.cfg.W ∧ s.valB = -1) →
      exec .divmod s = .next { s with regs := { s.regs with
        res0 := enc s.cfg.W (fdiv s.valA s.valB), res1 := enc s.cfg.W (nnmod s.valA |s.valB|),
        errcode := 0, busy := false, done := true } } ∧
      val (enc s.cfg.W (fdiv s.valA s.valB)) = fdiv s.valA s.valB ∧
      val (enc s.cfg.W (nnmod s.valA |s.valB|)) = nnmod s.valA |s.valB| ∧
      (0 < s.valB → s.valA = s.valB * fdiv s.valA s.valB + nnmod s.valA |s.valB|))

/-- Rule R98 (4): the division identity holds for every positive divisor; for a negative one the floor remainder lies in
`(b, 0]`, and the identity with the non-negative remainder holds exactly when the division is exact. -/
def Obligations.DivisionIdentityBySign : Prop :=
  (∀ a b : Int, 0 < b → a = b * fdiv a b + nnmod a |b|) ∧
  (∀ a b : Int, b < 0 → b < a - b * fdiv a b ∧ a - b * fdiv a b ≤ 0 ∧
    (a = b * fdiv a b + nnmod a |b| ↔ b ∣ a))

/-- Rule R102: INV returns the unique inverse in `[0, m)`, or fails `DOMAIN` when `m <= 0`, or `NOT_INVERTIBLE` exactly when
the gcd is not 1. -/
def Obligations.InvUniqueInverse : Prop :=
  decodeWord 0x00000008#32 = .ok .inv ∧
  ∀ s : State, s.cfg.WellFormed →
    (s.valB ≤ 0 →
      exec .inv s = .next { s with regs := { s.regs with errcode := 4, busy := false, done := true } }) ∧
    (0 < s.valB → Int.gcd s.valA s.valB ≠ 1 →
      exec .inv s = .next { s with regs := { s.regs with errcode := 5, busy := false, done := true } }) ∧
    (0 < s.valB → Int.gcd s.valA s.valB = 1 →
      ∃ x : Int, 0 ≤ x ∧ x < s.valB ∧ s.valB ∣ s.valA * x - 1 ∧
        (∀ y : Int, 0 ≤ y → y < s.valB → s.valB ∣ s.valA * y - 1 → y = x) ∧
        exec .inv s = .next { s with regs := { s.regs with
          res0 := enc s.cfg.W x, errcode := 0, busy := false, done := true } } ∧
        val (enc s.cfg.W x) = x)

/-- Rule R104: (a) inverse correctness, (b) non-invertibility detection, (c) the range for `m > 1`. -/
def Obligations.InverseProperties : Prop :=
  ∀ s : State, s.cfg.WellFormed → 0 < s.valB →
    ∃ r : Regs s.cfg.W, exec .inv s = .next { s with regs := r } ∧
      (Int.gcd s.valA s.valB = 1 → r.errcode = 0 ∧
        nnmod (s.valA * val r.res0) s.valB = nnmod 1 s.valB ∧
        (1 < s.valB → nnmod (s.valA * val r.res0) s.valB = 1 ∧ 1 ≤ val r.res0 ∧ val r.res0 < s.valB) ∧
        (s.valB = 1 → val r.res0 = 0)) ∧
      (Int.gcd s.valA s.valB ≠ 1 → r.errcode = 5 ∧ r.res0 = s.regs.res0)

/-- Rule R103: at every pass of the Euclidean loop the remainders stay in `[0, m]` and the coefficients within `|s| <= m`,
each pass strictly decreases the remainder, and the loop ends with remainder 0 and the gcd. -/
def Obligations.EuclidLoopBounds : Prop :=
  ∀ a0 m : Int, 0 ≤ a0 → a0 < m →
    (∀ n : Nat,
      let e := euclidLoop n (Euclid.start a0 m)
      0 ≤ e.r ∧ e.r ≤ m ∧ 0 ≤ e.oldR ∧ e.oldR ≤ m ∧ |e.s| ≤ m ∧ |e.oldS| ≤ m ∧
      (e.r ≠ 0 → 0 ≤ (euclidPass e).r ∧ (euclidPass e).r < e.r)) ∧
    (euclid a0 m).r = 0 ∧ (euclid a0 m).oldR = (Int.gcd a0 m : Int)

/-- Rule R105: POWMOD returns the exact power reduced into `[0, m)`, or fails `DOMAIN`. -/
def Obligations.PowmodExactPower : Prop :=
  decodeWord 0x00000009#32 = .ok .powmod ∧
  ∀ s : State, s.cfg.WellFormed →
    (s.valC ≤ 0 ∨ s.valB < 0 →
      exec .powmod s = .next { s with regs := { s.regs with errcode := 4, busy := false, done := true } }) ∧
    (0 < s.valC → 0 ≤ s.valB →
      exec .powmod s = .next { s with regs := { s.regs with
        res0 := enc s.cfg.W (nnmod (s.valA ^ s.valB.toNat) s.valC), errcode := 0, busy := false, done := true } } ∧
      0 ≤ nnmod (s.valA ^ s.valB.toNat) s.valC ∧ nnmod (s.valA ^ s.valB.toNat) s.valC < s.valC ∧
      val (enc s.cfg.W (nnmod (s.valA ^ s.valB.toNat) s.valC)) = nnmod (s.valA ^ s.valB.toNat) s.valC)

/-- Rules R105, R106: the square-and-multiply loop has consumed the exponent after `bitlen(e)` passes and not before, and at
every pass the accumulator and the base stay in `[0, m)`, so that each product is below `m^2`. -/
def Obligations.PowerLoopLengthAndBounds : Prop :=
  ∀ base e m : Int, 0 < m → 0 ≤ e →
    (powLoop m (bitlen e.toNat) (Power.start base e m)).k = 0 ∧
    (∀ n : Nat, n < bitlen e.toNat → 0 < (powLoop m n (Power.start base e m)).k) ∧
    (∀ n : Nat,
      let p := powLoop m n (Power.start base e m)
      0 ≤ p.acc ∧ p.acc < m ∧ 0 ≤ p.b ∧ p.b < m ∧ p.acc * p.b < m * m ∧ p.b * p.b < m * m)

/-- Rule R107: encryption then decryption by the machine gives the block back, for every derived key pair. -/
def Obligations.RsaRoundTrip : Prop :=
  ∀ (p q e d x : Nat) (s u : State), p.Prime → q.Prime → p ≠ q → e * d % ((p - 1) * (q - 1)) = 1 → x < p * q →
    s.cfg.WellFormed → u.cfg.WellFormed →
    s.valA = x → s.valB = e → s.valC = (p * q : Nat) →
    ∃ r : Regs s.cfg.W, exec .powmod s = .next { s with regs := r } ∧ r.errcode = 0 ∧
      (u.valA = val r.res0 → u.valB = d → u.valC = (p * q : Nat) →
        ∃ r' : Regs u.cfg.W, exec .powmod u = .next { u with regs := r' } ∧ r'.errcode = 0 ∧ val r'.res0 = x)

/-- Rule R18: a command's outcome is a function of the command and the operands alone; no other state is read. -/
def Obligations.OutcomeDependsOnOperandsOnly : Prop :=
  ∀ (i : Instr) (c : Config) (a b d : BitVec c.W), ∃ out : CommandResult c.W,
    ∀ (r : Regs c.W) (rst : Bool) (host : List HostOp) (sched : List Turn)
      (rdata : List (Option Word)) (got : List Int) (free : Nat),
      r.opa = a → r.opb = b → r.opc = d →
      exec i { cfg := c, regs := r, rst := rst, host := host, sched := sched, rdata := rdata, got := got, free := free } =
        .next {
          cfg := c, regs := finish r out, rst := rst, host := host, sched := sched, rdata := rdata, got := got, free := free }

/-- Rules R81, R93, R98: no command but POWMOD reads `OPC`. -/
def Obligations.OnlyPowmodReadsOpc : Prop :=
  ∀ (i : Instr) (s : State) (x : BitVec s.cfg.W), i ≠ .powmod →
    ∃ r : Regs s.cfg.W, exec i s = .next { s with regs := r } ∧
      exec i { s with regs := { s.regs with opc := x } } = .next { s with regs := { r with opc := x } }

/-- Rule R88: a result of INV, MOD or POWMOD has its sign bit clear. -/
def Obligations.ModularResultsNonNegative : Prop :=
  ∀ (i : Instr) (s : State), s.cfg.WellFormed → i = .inv ∨ i = .mod ∨ i = .powmod →
    ∃ r : Regs s.cfg.W, exec i s = .next { s with regs := r } ∧
      (r.errcode = 0 → r.res0.getLsbD (s.cfg.W - 1) = false ∧ 0 ≤ val r.res0 ∧ val r.res0 ≤ maxVal s.cfg.W)

/-! ### Errors and completion (60_exceptions.md) -/

/-- Rule R118, a step runs the decoded command: the core's turn is the completion of the command in `CMD` while busy, and
changes nothing at an idle core ("Enabled exactly when `STATUS.BUSY = 1`"; that such a turn may be scheduled at all is log 14).
A used-up schedule gives a busy core the next turn (the model's eager schedule, log 2). -/
def Obligations.StepRunsTheDecodedCommand : Prop :=
  (∀ (s : State) (i : Instr), s.regs.busy = true → s.rst = false → decodeWord s.regs.cmd = .ok i →
    (∀ ts : List Turn, s.sched = .core :: ts → step s = exec i { s with sched := ts }) ∧
    (s.sched = [] → step s = exec i s)) ∧
  (∀ (s : State) (ts : List Turn), s.regs.busy = false → s.sched = .core :: ts → step s = .next { s with sched := ts })

/-- `withFetchWord` puts a command in progress, so that the very next step runs it (the model's convention, log 9). -/
def Obligations.FetchWordIsRunNext : Prop :=
  ∀ (s : State) (i : Instr),
    step (s.withFetchWord 32 (encode i).toNat) =
      exec i { s with regs := { s.regs with cmd := encode i, busy := true, done := false, errcode := 0 }, rst := false }

/-- Rules R118, R119: what every completion writes and what it leaves unchanged, success or failure. -/
def Obligations.CompletionFrame : Prop :=
  ∀ (i : Instr) (s : State), ∃ r : Regs s.cfg.W, exec i s = .next { s with regs := r } ∧
    r.opa = s.regs.opa ∧ r.opb = s.regs.opb ∧ r.opc = s.regs.opc ∧ r.cmd = s.regs.cmd ∧ r.ien = s.regs.ien ∧
    r.lost = s.regs.lost ∧ r.busy = false ∧ r.done = true ∧
    (r.errcode ≠ 0 → r.res0 = s.regs.res0 ∧ r.res1 = s.regs.res1 ∧
      r.lt = s.regs.lt ∧ r.eq = s.regs.eq ∧ r.gt = s.regs.gt)

/-- Rules R25, R46: which command writes which result. -/
def Obligations.WhichCommandWritesWhat : Prop :=
  ∀ (i : Instr) (s : State), ∃ r : Regs s.cfg.W, exec i s = .next { s with regs := r } ∧
    (i ≠ .divmod → r.res1 = s.regs.res1) ∧
    (i = .cmp → r.res0 = s.regs.res0) ∧
    (i ≠ .cmp → r.lt = s.regs.lt ∧ r.eq = s.regs.eq ∧ r.gt = s.regs.gt) ∧
    (i = .cmp → r.lt.toNat + r.eq.toNat + r.gt.toNat = 1)

/-- Rule R110: which command ends with which code. -/
def Obligations.ErrorCodesByCommand : Prop :=
  ∀ (i : Instr) (s : State), ∃ r : Regs s.cfg.W, exec i s = .next { s with regs := r } ∧
    (r.errcode = 0 ∨
      (r.errcode = 2 ∧ (i = .add ∨ i = .sub ∨ i = .mul ∨ i = .div ∨ i = .divmod)) ∨
      (r.errcode = 3 ∧ (i = .div ∨ i = .mod ∨ i = .divmod)) ∨
      (r.errcode = 4 ∧ (i = .inv ∨ i = .powmod)) ∨
      (r.errcode = 5 ∧ i = .inv))

/-- Rule R122: enable, mask, pending, clear. -/
def Obligations.InterruptEnableAndClear : Prop :=
  ∀ (s : State) (v : Word),
    s.irq = (s.regs.ien && s.regs.done) ∧
    (v.getLsbD 1 = true → ({ s with regs := writeOffset s.regs 0x00C v } : State).irq = false) ∧
    (s.regs.busy = false → v.getLsbD 1 = false → v.getLsbD 0 = true →
      ({ s with regs := writeOffset s.regs 0x004 v } : State).irq = false) ∧
    (v.getLsbD 1 = true → ({ s with regs := writeOffset s.regs 0x004 v } : State).irq = false) ∧
    (v.getLsbD 1 = false → v.getLsbD 0 = false →
      ({ s with regs := writeOffset s.regs 0x004 v } : State).irq = (v.getLsbD 2 && s.regs.done) ∧
      (writeOffset s.regs 0x004 v).done = s.regs.done)

/-! ### The register window (10_state.md, 20_memory.md) -/

/-- Rules R58, R59, R63: a defined write is one step, and changes the registers as its offset says. -/
def Obligations.HostWriteIsOneStep : Prop :=
  ∀ (s : State) (ts : List Turn) (ops : List HostOp) (off : Nat) (v : Word),
    s.rst = false → off < 0x1000 → off % 4 = 0 → s.sched = .host :: ts →
    s.host = .write (s.cfg.base + off) 4 v :: ops →
    step s = .next { s with sched := ts, host := ops, regs := writeOffset s.regs off v }

/-- Rules R49, R65: a defined read returns the word at its offset and has no side effect. -/
def Obligations.HostReadHasNoSideEffect : Prop :=
  ∀ (s : State) (ts : List Turn) (ops : List HostOp) (off : Nat),
    s.rst = false → off < 0x1000 → off % 4 = 0 → s.sched = .host :: ts →
    s.host = .read (s.cfg.base + off) 4 :: ops →
    step s = .next { s with sched := ts, host := ops, rdata := some (readOffset s.regs off) :: s.rdata }

/-- Rule R60: an access to the window that is not an aligned 32-bit access is a fault. -/
def Obligations.UndefinedAccessFaults : Prop :=
  ∀ (s : State) (ts : List Turn) (ops : List HostOp) (addr size : Nat) (v : Word),
    s.rst = false → InWindow s.cfg addr → ((addr - s.cfg.base) % 4 ≠ 0 ∨ size ≠ 4) → s.sched = .host :: ts →
    (s.host = .read addr size :: ops → step s = .fault (.undefinedAccess addr size)) ∧
    (s.host = .write addr size v :: ops → step s = .fault (.undefinedAccess addr size))

/-- Rule R57: the core responds to no access outside its window (that the read then returns no word is log 5). -/
def Obligations.NoResponseOutsideTheWindow : Prop :=
  ∀ (s : State) (ts : List Turn) (ops : List HostOp) (addr size : Nat) (v : Word),
    (s.cfg.base + 0x1000 ≤ addr ∨ addr + size ≤ s.cfg.base) → 0 < size → s.sched = .host :: ts →
    (s.host = .read addr size :: ops → step s = .next { s with sched := ts, host := ops, rdata := none :: s.rdata }) ∧
    (s.host = .write addr size v :: ops → step s = .next { s with sched := ts, host := ops })

/-- Rule R31: where each limb stands and what stands beyond the last. -/
def Obligations.LimbLayout : Prop :=
  ∀ (W : Nat) (r : Regs W) (x : WideReg) (k : Nat) (v : Word), k < 64 →
    (k < W / 32 → ∀ i : Nat, i < 32 →
      (readOffset r (x.start + 4 * k)).getLsbD i = (r.wide x).getLsbD (32 * k + i)) ∧
    (W / 32 ≤ k → readOffset r (x.start + 4 * k) = 0 ∧ writeOffset r (x.start + 4 * k) v = r) ∧
    WideReg.opa.start = 0x100 ∧ WideReg.opb.start = 0x200 ∧ WideReg.opc.start = 0x300 ∧
    WideReg.res0.start = 0x400 ∧ WideReg.res1.start = 0x500

/-- Rule R48: an operand write replaces one limb while idle and is dropped while busy. -/
def Obligations.OperandWriteReplacesOneLimb : Prop :=
  ∀ (W : Nat) (r : Regs W) (x : WideReg) (k : Nat) (v : Word), W % 32 = 0 → W ≤ 2048 → k < W / 32 →
    x = .opa ∨ x = .opb ∨ x = .opc →
    (r.busy = false → ∃ y : BitVec W, writeOffset r (x.start + 4 * k) v = r.setOperand x y ∧
      (r.setOperand x y).wide x = y ∧ limb y k = v ∧
      ∀ j : Nat, j < W / 32 → j ≠ k → limb y j = limb (r.wide x) j) ∧
    (r.busy = true → writeOffset r (x.start + 4 * k) v = { r with lost := true })

/-- Rule R32, with the read-only offsets of rules R33 and R51: reserved offsets read zero, and writes to them, to `INFO` and
to the results change nothing, busy or idle. -/
def Obligations.IgnoredWrites : Prop :=
  ∀ (W : Nat) (r : Regs W) (off : Nat) (v : Word), off < 0x1000 → off % 4 = 0 →
    ((0x010 ≤ off ∧ off < 0x100) ∨ 0x600 ≤ off → readOffset r off = 0 ∧ writeOffset r off v = r) ∧
    (off = 0x000 ∨ (0x400 ≤ off ∧ off < 0x600) → writeOffset r off v = r)

/-- Rule R35: START, accepted and dropped. -/
def Obligations.StartAcceptedOrDropped : Prop :=
  ∀ (W : Nat) (r : Regs W) (v : Word), v.getLsbD 1 = false → v.getLsbD 0 = true →
    (r.busy = false → writeOffset r 0x004 v =
      { r with busy := true, done := false, errcode := 0, ien := v.getLsbD 2 }) ∧
    (r.busy = true → writeOffset r 0x004 v = { r with lost := true, ien := v.getLsbD 2 })

/-- Rules R34, R37, R38: what `CTRL` reads as, and a write to it that does not reset: it sets `IEN`, and changes nothing else
unless it starts. -/
def Obligations.CtrlHoldsIen : Prop :=
  ∀ (W : Nat) (r : Regs W),
    (∀ i : Nat, (readOffset r 0x004).getLsbD i = (r.ien && decide (i = 2))) ∧
    (∀ v : Word, v.getLsbD 1 = false →
      (writeOffset r 0x004 v).ien = v.getLsbD 2 ∧
      (v.getLsbD 0 = false → writeOffset r 0x004 v = { r with ien := v.getLsbD 2 }))

/-- Rules R36, R132: the soft reset, whatever the other bits of the write and busy or idle. -/
def Obligations.SoftResetClearsEverything : Prop :=
  ∀ (W : Nat) (r : Regs W) (v : Word), v.getLsbD 1 = true →
    writeOffset r 0x004 v = {
      opa := 0, opb := 0, opc := 0, res0 := 0, res1 := 0, cmd := 0, ien := false, busy := false, done := false,
      lost := false, errcode := 0, lt := false, eq := false, gt := false }

/-- Rule R39: `CMD` is stored whole and read back, or the write is dropped. -/
def Obligations.CmdStoredAndReadBack : Prop :=
  ∀ (W : Nat) (r : Regs W) (v : Word),
    (r.busy = false → writeOffset r 0x008 v = { r with cmd := v } ∧ readOffset (writeOffset r 0x008 v) 0x008 = v) ∧
    (r.busy = true → writeOffset r 0x008 v = { r with lost := true })

/-- Rules R40, R43: the bits of `STATUS`. -/
def Obligations.StatusBits : Prop :=
  ∀ (W : Nat) (r : Regs W),
    (readOffset r 0x00C).getLsbD 0 = r.busy ∧ (readOffset r 0x00C).getLsbD 1 = r.done ∧
    ((readOffset r 0x00C).getLsbD 2 = true ↔ r.errcode ≠ 0) ∧ (readOffset r 0x00C).getLsbD 3 = r.lost ∧
    (∀ i : Nat, i < 4 → (readOffset r 0x00C).getLsbD (4 + i) = r.errcode.getLsbD i) ∧
    (readOffset r 0x00C).getLsbD 8 = r.lt ∧ (readOffset r 0x00C).getLsbD 9 = r.eq ∧
    (readOffset r 0x00C).getLsbD 10 = r.gt ∧ (∀ i : Nat, 11 ≤ i → (readOffset r 0x00C).getLsbD i = false)

/-- Rule R33: the word `INFO`, constant for a configuration. -/
def Obligations.InfoWordFields : Prop :=
  ∀ (c : Config) (r : Regs c.W) (v : Word), c.WellFormed →
    ((readOffset r 0x000).extractLsb' 0 16).toNat = c.W / 32 ∧ ((readOffset r 0x000).extractLsb' 16 8).toNat = 1 ∧
    ((readOffset r 0x000).extractLsb' 24 8).toNat = 0 ∧ writeOffset r 0x000 v = r ∧
    ∀ r' : Regs c.W, readOffset r' 0x000 = readOffset r 0x000

/-- Rule R47: the write-one-to-clear bits of `STATUS`, busy or idle. -/
def Obligations.StatusWriteOneToClear : Prop :=
  ∀ (W : Nat) (r : Regs W) (v : Word),
    ∃ d l : Bool, writeOffset r 0x00C v = { r with done := d, lost := l } ∧
      (v.getLsbD 1 = true → d = false) ∧ (v.getLsbD 1 = false → d = r.done) ∧
      (v.getLsbD 3 = true → l = false) ∧ (v.getLsbD 3 = false → l = r.lost)

/-- Rule R50: which writes a busy core drops, and that it drops no other. -/
def Obligations.DroppedWritesAreExactlyThese : Prop :=
  ∀ (W : Nat) (r : Regs W) (off : Nat) (v : Word), off < 0x1000 → off % 4 = 0 → r.busy = true →
    ((off = 0x008 ∨ ((0x100 ≤ off ∧ off < 0x400) ∧ off % 0x100 / 4 < W / 32)) →
      writeOffset r off v = { r with lost := true }) ∧
    (off = 0x004 ∧ v.getLsbD 1 = false ∧ v.getLsbD 0 = true →
      writeOffset r off v = { r with lost := true, ien := v.getLsbD 2 }) ∧
    (¬ (off = 0x008 ∨ ((0x100 ≤ off ∧ off < 0x400) ∧ off % 0x100 / 4 < W / 32) ∨
        (off = 0x004 ∧ v.getLsbD 1 = false ∧ v.getLsbD 0 = true)) →
      ((writeOffset r off v).lost = true → r.lost = true) ∧
      (¬ (off = 0x004 ∧ v.getLsbD 1 = true) →
        writeOffset { r with busy := false } off v = { writeOffset r off v with busy := false }))

/-- Rule R67: every write but a START is idempotent; a second START is not. -/
def Obligations.WritesAreIdempotentButStart : Prop :=
  ∀ (W : Nat) (r : Regs W) (off : Nat) (v : Word), off % 4 = 0 →
    (¬ (off = 0x004 ∧ v.getLsbD 1 = false ∧ v.getLsbD 0 = true) →
      writeOffset (writeOffset r off v) off v = writeOffset r off v) ∧
    (off = 0x004 ∧ v.getLsbD 1 = false ∧ v.getLsbD 0 = true →
      (writeOffset (writeOffset r off v) off v).lost = true ∧
      (r.busy = false → r.lost = false → writeOffset (writeOffset r off v) off v ≠ writeOffset r off v))

/-- Rules R28, R50: while the command in progress runs, a step that does not end it leaves the command, its operands, the
results, the flags and the error code as they are. -/
def Obligations.CommandStableWhileBusy : Prop :=
  ∀ s t : State, s.ResetFree → s.regs.busy = true → step s = .next t → t.regs.busy = true →
    ∃ r : Regs s.cfg.W, t = { s with regs := r, host := t.host, sched := t.sched, rdata := t.rdata, got := t.got } ∧
      r.cmd = s.regs.cmd ∧ r.opa = s.regs.opa ∧ r.opb = s.regs.opb ∧ r.opc = s.regs.opc ∧ r.res0 = s.regs.res0 ∧
      r.res1 = s.regs.res1 ∧ r.errcode = s.regs.errcode ∧ r.lt = s.regs.lt ∧ r.eq = s.regs.eq ∧ r.gt = s.regs.gt

/-- Rule R51: the result registers change only in a completion and in a reset. -/
def Obligations.ResultsChangeOnlyAtCompletionOrReset : Prop :=
  ∀ s t : State, s.ResetFree → step s = .next t →
    (s.regs.busy = true ∧ t.regs.busy = false) ∨
    ∃ r : Regs s.cfg.W, t = { s with regs := r, host := t.host, sched := t.sched, rdata := t.rdata, got := t.got } ∧
      r.res0 = s.regs.res0 ∧ r.res1 = s.regs.res1

/-! ### Reset (10_state.md, 70_reset_and_hazards.md) -/

/-- Rule R53: every component after reset; every offset but `INFO` then reads zero, and `IRQ` is low. The width 64 of
`State.reset` is the model's choice (log 1). -/
def Obligations.ResetValues : Prop :=
  ∀ c : Config,
    (State.resetOf c).regs = {
      opa := 0, opb := 0, opc := 0, res0 := 0, res1 := 0, cmd := 0, ien := false, busy := false, done := false,
      lost := false, errcode := 0, lt := false, eq := false, gt := false } ∧
    (State.resetOf c).irq = false ∧
    (∀ off : Nat, off ≠ 0x000 → readOffset (State.resetOf c).regs off = 0) ∧
    State.reset.regs = Regs.reset 64

/-- Rule R131: while the reset input is asserted the core takes no step and ignores host accesses; on release every register
holds its reset value. That the registers keep their content until the release is the model's reading (log 3), the data of a
read made meanwhile is free (log 4), and that the host's queue, the words it has read, the values it
has formed and the free counter are kept across the release
is the model's reading too (log 16): rule R131 speaks of the record of rule R22 only. -/
def Obligations.HardResetHoldsThenClears : Prop :=
  ∀ s t : State, s.rst = true → step s = .next t →
    (s.sched.head? ≠ some .releaseReset →
      t = { s with host := t.host, sched := t.sched, rdata := t.rdata, got := t.got, free := t.free }) ∧
    (s.sched.head? = some .releaseReset →
      t = { s with sched := s.sched.tail, rst := false, regs :=
        {
      opa := 0, opb := 0, opc := 0, res0 := 0, res1 := 0, cmd := 0, ien := false, busy := false, done := false,
      lost := false, errcode := 0, lt := false, eq := false, gt := false } })

/-- Rule R142: a START after a reset runs `CMD = 0` and fails `ILLEGAL_COMMAND`, whatever command the reset abandoned. -/
def Obligations.StartAfterResetIsIllegal : Prop :=
  ∀ s : State, s.rst = false →
    coreTurn { s with regs := writeOffset (writeOffset s.regs 0x004 0x2) 0x004 0x1 } =
      .next { s with regs := { Regs.reset s.cfg.W with errcode := 1, done := true } }

/-! ### The machine -/

/-- The invariant of the architectural state holds after reset. -/
def Obligations.InvariantAtReset : Prop :=
  State.reset.Inv ∧ ∀ c : Config, c.WellFormed → (State.resetOf c).Inv

/-- Every step, of either agent or of the reset input, keeps the configuration (rules R23, R33) and the invariant (rules R42,
R45, R46, R110). -/
def Obligations.StepKeepsTheInvariant : Prop :=
  ∀ s t : State, step s = .next t → t.cfg = s.cfg ∧ (s.Inv → t.Inv)

/-- Rules R57, R60, 93 I1: a step of a machine whose host keeps to the contract never stops, and the host goes on keeping
it. -/
def Obligations.SafeHostsNeverStop : Prop :=
  ∀ s : State, s.Safe → ∃ t : State, step s = .next t ∧ t.Safe

/-- Rules R28, R119, R145: on every schedule without a reset an accepted command completes after finitely many steps, as the
command and on the operands held at the start; only `IEN` and `LOST` may differ, by what the host wrote meanwhile. The bound
on the number of steps is the model's (log 2: a schedule that is used up goes on eagerly). -/
def Obligations.EveryStartedCommandCompletes : Prop :=
  ∀ s : State, s.ResetFree → s.regs.busy = true →
    ∃ (n : Nat) (r : Regs s.cfg.W) (ien lost : Bool) (host : List HostOp) (sched : List Turn)
      (rdata : List (Option Word)) (got : List Int),
      n ≤ s.sched.length + 1 ∧ completion s = .next { s with regs := r } ∧
      Sys2Proof.core.run n s =
        .next { s with
          regs := { r with ien := ien, lost := lost }, host := host, sched := sched, rdata := rdata, got := got }

/-- Rules R87, R90: `ld X, v` on an idle core puts the integer `v` into the operand register. -/
def Obligations.LoadGivesTheRegisterItsValue : Prop :=
  ∀ (s : State) (x : WideReg) (v : Int) (rest : List HostOp),
    s.cfg.WellFormed → s.rst = false → s.regs.busy = false → s.sched = [] →
    x = .opa ∨ x = .opb ∨ x = .opc → Fits s.cfg.W v → s.host = ld s.cfg x v ++ rest →
    Sys2Proof.core.run s.cfg.limbs s =
      .next { s with host := rest, regs := s.regs.setOperand x (enc s.cfg.W v) } ∧
    val ((s.regs.setOperand x (enc s.cfg.W v)).wide x) = v

/-- Rules R16, R87: the limbs of a value that fits 32 bits are its sign extension. -/
def Obligations.SmallValuesAreSignExtended : Prop :=
  ∀ (W : Nat) (v : Int), W % 32 = 0 → 64 ≤ W → -2 ^ 31 ≤ v → v ≤ 2 ^ 31 - 1 →
    ((limb (enc W v) 0).toNat : Int) = v % 2 ^ 32 ∧
    (∀ k : Nat, 1 ≤ k → k < W / 32 → limb (enc W v) k = if v < 0 then 0xFFFFFFFF#32 else 0) ∧
    enc W v = sext32 W (limb (enc W v) 0)

/-- Rules R90, R91 under the eager schedule (log 2): `run M` on an idle core is the completion of `M` on the registers as
they stand, with `CMD` holding `M` and `IEN` clear. -/
def Obligations.RunMacroIsTheCompletion : Prop :=
  ∀ (s : State) (w : Word) (rest : List HostOp),
    s.rst = false → s.regs.busy = false → s.sched = [] → s.host = run s.cfg w ++ rest →
    ∃ r : Regs s.cfg.W,
      completion { s with regs := { s.regs with cmd := w, ien := false } } =
        .next { s with regs := r } ∧
      Sys2Proof.core.run 4 s = .next { s with regs := r, host := rest, rdata := some (readOffset r 0x00C) :: s.rdata }

/-- Rules R88, R90: `get X -> r` on an idle core under the eager schedule (log 2) reads the limbs of `X`, the lowest first, and
forms `r = val(X)`; no register changes. That `r` is the newest value of `got`, and its forming a turn of its own, is the
model's convention (log 18). -/
def Obligations.GetGivesTheRegistersValue : Prop :=
  ∀ (s : State) (x : WideReg) (rest : List HostOp),
    s.cfg.WellFormed → s.rst = false → s.regs.busy = false → s.sched = [] → s.host = get s.cfg x ++ rest →
    Sys2Proof.core.run (s.cfg.limbs + 1) s =
      .next { s with
        host := rest, got := val (s.regs.wide x) :: s.got,
        rdata := ((List.range s.cfg.limbs).map fun k => some (limb (s.regs.wide x) k)).reverse ++ s.rdata }
end

