-- ==== Sys2Proof/Laws/Numbers.lean ====
section
/-! SUPPORT. The spec lemmas of the numbers (Machine/Operands.lean): `val` and `enc` are inverse on the range, `fdiv` and
`nnmod` are the integer operations of the library, a limb is a slice of bits and a limb write replaces one slice. -/

namespace Sys2Proof.Machine

theorem minVal_le_val {W : Nat} (hW : 0 < W) (x : BitVec W) : minVal W ≤ val x := by
  have := BitVec.le_two_mul_toInt (x := x)
  obtain ⟨n, rfl⟩ : ∃ n, W = n + 1 := ⟨W - 1, by omega⟩
  simp only [minVal, val, Nat.add_sub_cancel, pow_succ] at *
  omega

theorem val_le_maxVal {W : Nat} (hW : 0 < W) (x : BitVec W) : val x ≤ maxVal W := by
  have := BitVec.two_mul_toInt_lt (x := x)
  obtain ⟨n, rfl⟩ : ∃ n, W = n + 1 := ⟨W - 1, by omega⟩
  simp only [maxVal, val, Nat.add_sub_cancel, pow_succ] at *
  omega

/-- A register always holds a value of the range (rules R7, R13). -/
theorem val_fits {W : Nat} (hW : 0 < W) (x : BitVec W) : Fits W (val x) :=
  ⟨minVal_le_val hW x, val_le_maxVal hW x⟩

/-- `val(enc(v)) = v` on the range (rule R13). -/
theorem val_enc {W : Nat} (hW : 0 < W) {v : Int} (h : Fits W v) : val (enc W v) = v := by
  obtain ⟨n, rfl⟩ : ∃ n, W = n + 1 := ⟨W - 1, by omega⟩
  simp only [Fits, minVal, maxVal, Nat.add_sub_cancel] at h
  simp only [val, enc, BitVec.toInt_ofInt]
  refine Int.bmod_eq_of_le ?_ ?_ <;> (push_cast; rw [pow_succ]; omega)

/-- `MAX = -MIN - 1` (rule R7). -/
theorem maxVal_eq (W : Nat) : maxVal W = -minVal W - 1 := by simp [maxVal, minVal]

/-- The range holds small values whatever the legal width (rules R6, R7). -/
theorem two_pow_le_maxVal {W n : Nat} (h : n < W - 1) : (2 : Int) ^ n ≤ maxVal W := by
  have : (2 : Int) ^ (n + 1) ≤ 2 ^ (W - 1) := pow_le_pow_right₀ (by norm_num) (by omega)
  have h2 : (1 : Int) ≤ 2 ^ n := one_le_pow₀ (by norm_num)
  simp only [maxVal]; rw [pow_succ] at this; omega

/-- `fdiv` by a positive divisor is the library's division. -/
theorem fdiv_of_pos (a : Int) {b : Int} (h : 0 < b) : fdiv a b = a / b :=
  Int.fdiv_eq_ediv_of_nonneg a (le_of_lt h)

/-- The floor remainder by a negative divisor lies in `(b, 0]` (rules R14, R98). -/
theorem floor_remainder_of_neg (a : Int) {b : Int} (h : b < 0) :
    b < a - b * fdiv a b ∧ a - b * fdiv a b ≤ 0 := by
  have hq : fdiv a b = (-a) / (-b) := by
    rw [fdiv, ← Int.neg_fdiv_neg, Int.fdiv_eq_ediv_of_nonneg _ (by omega)]
  have h1 := Int.mul_ediv_add_emod (-a) (-b)
  have h2 := Int.emod_nonneg (-a) (b := -b) (by omega)
  have h3 := Int.emod_lt_of_pos (-a) (b := -b) (by omega)
  rw [hq]
  constructor <;> linarith

/-- The floor remainder by a positive divisor lies in `[0, b)` (rule R14). -/
theorem floor_remainder_of_pos (a : Int) {b : Int} (h : 0 < b) :
    0 ≤ a - b * fdiv a b ∧ a - b * fdiv a b < b := by
  rw [fdiv_of_pos a h]
  have h1 := Int.mul_ediv_add_emod a b
  have h2 := Int.emod_nonneg a (b := b) (by omega)
  have h3 := Int.emod_lt_of_pos a h
  constructor <;> linarith

/-- `nnmod` by a positive modulus is the library's non-negative remainder. -/
theorem nnmod_of_pos (a : Int) {m : Int} (h : 0 < m) : nnmod a m = a % m := by
  rw [nnmod, fdiv_of_pos a h]
  have := Int.mul_ediv_add_emod a m
  omega

theorem nnmod_nonneg (a : Int) {m : Int} (h : 0 < m) : 0 ≤ nnmod a m := by
  rw [nnmod_of_pos a h]; exact Int.emod_nonneg a (ne_of_gt h)

theorem nnmod_lt (a : Int) {m : Int} (h : 0 < m) : nnmod a m < m := by
  rw [nnmod_of_pos a h]; exact Int.emod_lt_of_pos a h

theorem absVal_pos {b : Int} (h : b ≠ 0) : 0 < absVal b := by
  unfold absVal; split <;> omega

/-- Bit `i` of limb `k` is bit `32k + i` of the register (rule R31). -/
theorem getLsbD_limb {W : Nat} (x : BitVec W) (k i : Nat) :
    (limb x k).getLsbD i = (decide (i < 32) && x.getLsbD (32 * k + i)) := by
  simp [limb, BitVec.getLsbD_extractLsb']

/-- Bit `i` of the mask of limb `k`. -/
theorem getLsbD_limbMask (W k i : Nat) :
    (limbMask W k).getLsbD i = (decide (i < W) && decide (32 * k ≤ i) && decide (i < 32 * k + 32)) := by
  simp only [limbMask, BitVec.getLsbD_shiftLeft, BitVec.getLsbD_setWidth, BitVec.getLsbD_allOnes]
  by_cases h1 : i < W <;> by_cases h2 : 32 * k ≤ i <;> by_cases h3 : i < 32 * k + 32 <;>
    simp [h1, h2, h3] <;> omega

/-- All that a limb write does, bit by bit (rule R48). -/
theorem getLsbD_setLimb {W : Nat} (x : BitVec W) (k : Nat) (v : Word) (i : Nat) :
    (setLimb x k v).getLsbD i =
      (decide (i < W) && if 32 * k ≤ i ∧ i < 32 * k + 32 then v.getLsbD (i - 32 * k) else x.getLsbD i) := by
  simp only [setLimb, BitVec.getLsbD_or, BitVec.getLsbD_and, BitVec.getLsbD_not, getLsbD_limbMask,
    BitVec.getLsbD_shiftLeft, BitVec.getLsbD_setWidth]
  by_cases h1 : i < W
  · by_cases h2 : 32 * k ≤ i
    · by_cases h3 : i < 32 * k + 32
      · have h4 : ¬ i < 32 * k := by omega
        have h5 : i - 32 * k < W := by omega
        simp [h1, h2, h3, h4, h5]
      · have h4 : ¬ i < 32 * k := by omega
        have h5 : v.getLsbD (i - 32 * k) = false := BitVec.getLsbD_of_ge _ _ (by omega)
        simp [h1, h2, h3, h4, h5]
    · have h4 : i < 32 * k := by omega
      simp [h1, h2, h4]
  · have h5 : x.getLsbD i = false := BitVec.getLsbD_of_ge _ _ (by omega)
    simp [h1, h5]

/-- A limb write is read back (rule R48). -/
theorem limb_setLimb_same {W : Nat} (x : BitVec W) {k : Nat} (v : Word) (h : 32 * k + 32 ≤ W) :
    limb (setLimb x k v) k = v := by
  refine BitVec.eq_of_getLsbD_eq fun i hi => ?_
  rw [getLsbD_limb, getLsbD_setLimb]
  have h1 : 32 * k + i < W := by omega
  have h3 : i < 32 := by omega
  simp [h3, h1]

/-- A limb write leaves every other limb alone (rule R48). -/
theorem limb_setLimb_ne {W : Nat} (x : BitVec W) {k j : Nat} (v : Word) (h : j ≠ k) :
    limb (setLimb x k v) j = limb x j := by
  refine BitVec.eq_of_getLsbD_eq fun i hi => ?_
  rw [getLsbD_limb, getLsbD_setLimb, getLsbD_limb]
  have h3 : ¬ (32 * k ≤ 32 * j + i ∧ 32 * j + i < 32 * k + 32) := by omega
  by_cases h1 : 32 * j + i < W
  · simp [h3, h1]
  · simp [h1, BitVec.getLsbD_of_ge x (32 * j + i) (by omega)]

/-- Two registers of a legal width with the same limbs are the same. -/
theorem eq_of_limb_eq {W : Nat} (hW : W % 32 = 0) {x y : BitVec W} (h : ∀ k, k < W / 32 → limb x k = limb y k) :
    x = y := by
  refine BitVec.eq_of_getLsbD_eq fun i hi => ?_
  have hk := congrArg (fun w => w.getLsbD (i % 32)) (h (i / 32) (by omega))
  simp only [getLsbD_limb] at hk
  have h1 : i % 32 < 32 := Nat.mod_lt _ (by norm_num)
  have h2 : 32 * (i / 32) + i % 32 = i := by omega
  simpa [h1, h2] using hk

/-- Limb 0 first, the limbs of the low `n` limbs' worth of a register sum to it (rule R86). -/
theorem limbSum_limbs {W : Nat} (x : BitVec W) (n : Nat) :
    limbSum ((List.range n).map (limb x)) = x.toNat % 2 ^ (32 * n) := by
  have step : ∀ n k : Nat,
      limbSum ((List.range' k n).map (limb x)) = x.toNat / 2 ^ (32 * k) % 2 ^ (32 * n) := by
    intro n
    induction n with
    | zero => intro k; simp [limbSum, Nat.mod_one]
    | succ n ih =>
      intro k
      rw [List.range'_succ, List.map_cons, limbSum, ih, show 32 * (n + 1) = 32 + 32 * n by ring,
        pow_add 2 32, Nat.mod_mul, show 32 * (k + 1) = 32 * k + 32 by ring, pow_add, ← Nat.div_div_eq_div_mul]
      simp [limb, BitVec.extractLsb'_toNat, Nat.shiftRight_eq_div_pow]
  simpa [List.range_eq_range'] using step n 0

/-- A register is put together again from its limbs (rules R31, R86). -/
theorem ofLimbs_limbs {W : Nat} (hW : W % 32 = 0) (x : BitVec W) : ofLimbs W ((List.range (W / 32)).map (limb x)) = x := by
  rw [ofLimbs, limbSum_limbs, show 32 * (W / 32) = W by omega, Nat.mod_eq_of_lt x.isLt]
  simp

end Sys2Proof.Machine
end

