-- ==== Sys2Proof/Laws/State.lean ====
section
/-! SUPPORT. One lemma per field and named update of the registers and the state, so that no later proof unfolds one. -/

namespace Sys2Proof.Machine

variable {W : Nat} (r : Regs W)

@[simp] theorem acceptStart_opa : (acceptStart r).opa = r.opa := rfl
@[simp] theorem acceptStart_opb : (acceptStart r).opb = r.opb := rfl
@[simp] theorem acceptStart_opc : (acceptStart r).opc = r.opc := rfl
@[simp] theorem acceptStart_res0 : (acceptStart r).res0 = r.res0 := rfl
@[simp] theorem acceptStart_res1 : (acceptStart r).res1 = r.res1 := rfl
@[simp] theorem acceptStart_cmd : (acceptStart r).cmd = r.cmd := rfl
@[simp] theorem acceptStart_ien : (acceptStart r).ien = r.ien := rfl
@[simp] theorem acceptStart_busy : (acceptStart r).busy = true := rfl
@[simp] theorem acceptStart_done : (acceptStart r).done = false := rfl
@[simp] theorem acceptStart_lost : (acceptStart r).lost = r.lost := rfl
@[simp] theorem acceptStart_errcode : (acceptStart r).errcode = 0 := rfl
@[simp] theorem acceptStart_lt : (acceptStart r).lt = r.lt := rfl
@[simp] theorem acceptStart_eq : (acceptStart r).eq = r.eq := rfl
@[simp] theorem acceptStart_gt : (acceptStart r).gt = r.gt := rfl

@[simp] theorem dropWrite_opa : (dropWrite r).opa = r.opa := rfl
@[simp] theorem dropWrite_opb : (dropWrite r).opb = r.opb := rfl
@[simp] theorem dropWrite_opc : (dropWrite r).opc = r.opc := rfl
@[simp] theorem dropWrite_res0 : (dropWrite r).res0 = r.res0 := rfl
@[simp] theorem dropWrite_res1 : (dropWrite r).res1 = r.res1 := rfl
@[simp] theorem dropWrite_cmd : (dropWrite r).cmd = r.cmd := rfl
@[simp] theorem dropWrite_ien : (dropWrite r).ien = r.ien := rfl
@[simp] theorem dropWrite_busy : (dropWrite r).busy = r.busy := rfl
@[simp] theorem dropWrite_done : (dropWrite r).done = r.done := rfl
@[simp] theorem dropWrite_lost : (dropWrite r).lost = true := rfl
@[simp] theorem dropWrite_errcode : (dropWrite r).errcode = r.errcode := rfl
@[simp] theorem dropWrite_lt : (dropWrite r).lt = r.lt := rfl
@[simp] theorem dropWrite_eq : (dropWrite r).eq = r.eq := rfl
@[simp] theorem dropWrite_gt : (dropWrite r).gt = r.gt := rfl

@[simp] theorem softReset_eq : softReset r = Regs.reset W := rfl

@[simp] theorem reset_opa : (Regs.reset W).opa = 0 := rfl
@[simp] theorem reset_opb : (Regs.reset W).opb = 0 := rfl
@[simp] theorem reset_opc : (Regs.reset W).opc = 0 := rfl
@[simp] theorem reset_res0 : (Regs.reset W).res0 = 0 := rfl
@[simp] theorem reset_res1 : (Regs.reset W).res1 = 0 := rfl
@[simp] theorem reset_cmd : (Regs.reset W).cmd = 0 := rfl
@[simp] theorem reset_ien : (Regs.reset W).ien = false := rfl
@[simp] theorem reset_busy : (Regs.reset W).busy = false := rfl
@[simp] theorem reset_done : (Regs.reset W).done = false := rfl
@[simp] theorem reset_lost : (Regs.reset W).lost = false := rfl
@[simp] theorem reset_errcode : (Regs.reset W).errcode = 0 := rfl
@[simp] theorem reset_lt : (Regs.reset W).lt = false := rfl
@[simp] theorem reset_eq : (Regs.reset W).eq = false := rfl
@[simp] theorem reset_gt : (Regs.reset W).gt = false := rfl

@[simp] theorem takeError_opa (c : ErrorCode) : (takeError c r).opa = r.opa := rfl
@[simp] theorem takeError_opb (c : ErrorCode) : (takeError c r).opb = r.opb := rfl
@[simp] theorem takeError_opc (c : ErrorCode) : (takeError c r).opc = r.opc := rfl
@[simp] theorem takeError_res0 (c : ErrorCode) : (takeError c r).res0 = r.res0 := rfl
@[simp] theorem takeError_res1 (c : ErrorCode) : (takeError c r).res1 = r.res1 := rfl
@[simp] theorem takeError_cmd (c : ErrorCode) : (takeError c r).cmd = r.cmd := rfl
@[simp] theorem takeError_ien (c : ErrorCode) : (takeError c r).ien = r.ien := rfl
@[simp] theorem takeError_busy (c : ErrorCode) : (takeError c r).busy = false := rfl
@[simp] theorem takeError_done (c : ErrorCode) : (takeError c r).done = true := rfl
@[simp] theorem takeError_lost (c : ErrorCode) : (takeError c r).lost = r.lost := rfl
@[simp] theorem takeError_errcode (c : ErrorCode) : (takeError c r).errcode = c.code := rfl
@[simp] theorem takeError_lt (c : ErrorCode) : (takeError c r).lt = r.lt := rfl
@[simp] theorem takeError_eq (c : ErrorCode) : (takeError c r).eq = r.eq := rfl
@[simp] theorem takeError_gt (c : ErrorCode) : (takeError c r).gt = r.gt := rfl

@[simp] theorem setOperand_opa (v : BitVec W) : r.setOperand .opa v = { r with opa := v } := rfl
@[simp] theorem setOperand_opb (v : BitVec W) : r.setOperand .opb v = { r with opb := v } := rfl
@[simp] theorem setOperand_opc (v : BitVec W) : r.setOperand .opc v = { r with opc := v } := rfl
@[simp] theorem setOperand_res0 (v : BitVec W) : r.setOperand .res0 v = r := rfl
@[simp] theorem setOperand_res1 (v : BitVec W) : r.setOperand .res1 v = r := rfl
@[simp] theorem wide_opa : r.wide .opa = r.opa := rfl
@[simp] theorem wide_opb : r.wide .opb = r.opb := rfl
@[simp] theorem wide_opc : r.wide .opc = r.opc := rfl
@[simp] theorem wide_res0 : r.wide .res0 = r.res0 := rfl
@[simp] theorem wide_res1 : r.wide .res1 = r.res1 := rfl

variable (s : State)

@[simp] theorem assertReset_cfg : s.assertReset.cfg = s.cfg := rfl
@[simp] theorem assertReset_regs : s.assertReset.regs = s.regs := rfl
@[simp] theorem assertReset_rst : s.assertReset.rst = true := rfl
@[simp] theorem assertReset_host : s.assertReset.host = s.host := rfl
@[simp] theorem assertReset_sched : s.assertReset.sched = s.sched := rfl
@[simp] theorem assertReset_rdata : s.assertReset.rdata = s.rdata := rfl
@[simp] theorem assertReset_got : s.assertReset.got = s.got := rfl
@[simp] theorem assertReset_free : s.assertReset.free = s.free := rfl

/-- All that a release of the reset input does (rule R131). -/
theorem releaseReset_of_asserted (h : s.rst = true) :
    s.releaseReset = { s with rst := false, regs := Regs.reset s.cfg.W } := by
  simp [State.releaseReset, h]

/-- A release without an asserted input does nothing (log 14). -/
theorem releaseReset_of_not_asserted (h : s.rst = false) : s.releaseReset = s := by
  simp [State.releaseReset, h]

@[simp] theorem resetOf_cfg (c : Config) : (State.resetOf c).cfg = c := rfl
@[simp] theorem resetOf_regs (c : Config) : (State.resetOf c).regs = Regs.reset c.W := rfl
@[simp] theorem resetOf_rst (c : Config) : (State.resetOf c).rst = false := rfl
@[simp] theorem resetOf_host (c : Config) : (State.resetOf c).host = [] := rfl
@[simp] theorem resetOf_sched (c : Config) : (State.resetOf c).sched = [] := rfl
@[simp] theorem resetOf_rdata (c : Config) : (State.resetOf c).rdata = [] := rfl
@[simp] theorem resetOf_got (c : Config) : (State.resetOf c).got = [] := rfl
@[simp] theorem resetOf_free (c : Config) : (State.resetOf c).free = 0 := rfl

end Sys2Proof.Machine
end

