-- ==== Sys2Proof/Laws/Completion.lean ====
section
/-! SUPPORT. The completion of a command (Machine/Ops.lean, Machine/Dispatch.lean), said once: `exec` is the completion with
the command's result, and each form of result has one next state. -/

namespace Sys2Proof.Machine

/-- The result of a command on operands `a`, `b`, `d`: the function `exec(op, OPA, OPB, OPC)` of rule R18. -/
def commandOf (W : Nat) (a b d : Int) : Instr → CommandResult W
  | .add => addCommand W a b
  | .sub => subCommand W a b
  | .mul => mulCommand W a b
  | .div => divCommand W a b
  | .mod => modCommand W a b
  | .divmod => divmodCommand W a b
  | .cmp => cmpCommand W a b
  | .inv => invCommand W a b
  | .powmod => powmodCommand W a b d

/-- All that `exec` does: the completion with the command's result on the three operands. -/
theorem exec_eq_complete (i : Instr) (s : State) :
    exec i s = s.complete (commandOf s.cfg.W s.valA s.valB s.valC i) := by
  cases i <;> rfl

theorem complete_error (s : State) (c : ErrorCode) :
    s.complete (.error c) = .next { s with regs := { s.regs with errcode := c.code, busy := false, done := true } } := rfl

theorem complete_res0 (s : State) (x : BitVec s.cfg.W) :
    s.complete (.ok [.res0 x]) =
      .next { s with regs := { s.regs with res0 := x, errcode := 0, busy := false, done := true } } := rfl

theorem complete_res0_res1 (s : State) (x y : BitVec s.cfg.W) :
    s.complete (.ok [.res0 x, .res1 y]) =
      .next { s with regs := { s.regs with res0 := x, res1 := y, errcode := 0, busy := false, done := true } } := rfl

theorem complete_flags (s : State) (lt eq gt : Bool) :
    s.complete (.ok [.flags lt eq gt]) =
      .next { s with regs := { s.regs with
        lt := lt, eq := eq, gt := gt, errcode := 0, busy := false, done := true } } := rfl

theorem exactResult_of_fits {W : Nat} {v : Int} (h : Fits W v) : exactResult W v = .ok [.res0 (enc W v)] := by
  unfold exactResult; rw [if_neg]; unfold Fits at h; omega

theorem exactResult_of_not_fits {W : Nat} {v : Int} (h : ¬ Fits W v) : exactResult W v = .error .overflow := by
  unfold exactResult; rw [if_pos]; unfold Fits at h; omega

/-- The five forms a command's result can have, by command (rules R25, R81, R110). -/
inductive ResultForm (W : Nat) : Instr → CommandResult W → Prop where
  | overflow {i} (h : i = .add ∨ i = .sub ∨ i = .mul ∨ i = .div ∨ i = .divmod) : ResultForm W i (.error .overflow)
  | divByZero {i} (h : i = .div ∨ i = .mod ∨ i = .divmod) : ResultForm W i (.error .divByZero)
  | domain {i} (h : i = .inv ∨ i = .powmod) : ResultForm W i (.error .domain)
  | notInvertible : ResultForm W .inv (.error .notInvertible)
  | one {i} (x) (h : i ≠ .cmp ∧ i ≠ .divmod) : ResultForm W i (.ok [.res0 x])
  | two (x y) : ResultForm W .divmod (.ok [.res0 x, .res1 y])
  | flags (a b : Int) : ResultForm W .cmp (.ok [compareFlags W a b])

/-- Every command's result has one of these forms. -/
theorem commandOf_form (W : Nat) (a b d : Int) (i : Instr) : ResultForm W i (commandOf W a b d i) := by
  cases i <;> simp only [commandOf, addCommand, subCommand, mulCommand, divCommand, modCommand, divmodCommand,
    cmpCommand, invCommand, powmodCommand, exactResult] <;> repeat' split
  all_goals first
    | exact .overflow (by simp)
    | exact .divByZero (by simp)
    | exact .domain (by simp)
    | exact .notInvertible
    | exact .one _ (by simp)
    | exact .two _ _
    | exact .flags _ _

/-- All that `exec` can do, said once: it completes, with a result of one of the forms of the command. -/
theorem exec_cases (i : Instr) (s : State) :
    ∃ out : CommandResult s.cfg.W, ResultForm s.cfg.W i out ∧ exec i s = .next { s with regs := finish s.regs out } :=
  ⟨_, commandOf_form s.cfg.W s.valA s.valB s.valC i, exec_eq_complete i s⟩

/-- Exactly one of the three comparison flags is set (rule R96). -/
theorem compare_exactly_one (a b : Int) :
    (decide (a < b)).toNat + (decide (a = b)).toNat + (decide (a > b)).toNat = 1 := by
  rcases lt_trichotomy a b with h | h | h
  · have h1 : ¬ a = b := by omega
    have h2 : ¬ b < a := by omega
    simp [h, h1, h2]
  · subst h; simp
  · have h1 : ¬ a = b := by omega
    have h2 : ¬ a < b := by omega
    simp [h, h1, h2]

end Sys2Proof.Machine
end

