-- ==== Sys2Proof/Laws/Bus.lean ====
section
/-! SUPPORT. The spec lemmas of the register window (Machine/Bus.lean): where an aligned offset leads, what each register
write is, and all that one host turn can do. -/

namespace Sys2Proof.Machine

/-! ### Address decode -/

/-- An aligned 4-byte access inside the window is defined, at its offset (rules R58 to R60). -/
theorem classify_defined (c : Config) {off : Nat} (h1 : off < 0x1000) (h2 : off % 4 = 0) :
    classify c (c.base + off) 4 = .defined off := by
  have h3 : InWindow c (c.base + off) := by
    simp only [InWindow, windowBytes]; omega
  simp [classify, h3, h2]

/-- An access inside the window that is misaligned or not of 4 bytes is undefined (rule R60). -/
theorem classify_undefined (c : Config) {addr size : Nat} (h1 : InWindow c addr)
    (h2 : (addr - c.base) % 4 ≠ 0 ∨ size ≠ 4) : classify c addr size = .undefined := by
  have h3 : ¬ (size = 4 ∧ (addr - c.base) % 4 = 0) := by omega
  simp [classify, h1, h3]

/-- An access that touches no byte of the window is outside (rule R57). -/
theorem classify_outside (c : Config) {addr size : Nat} (h : c.base + 0x1000 ≤ addr ∨ addr + size ≤ c.base)
    (h0 : 0 < size) : classify c addr size = .outside := by
  have h1 : ¬ InWindow c addr := by simp only [InWindow, windowBytes]; omega
  have h2 : ¬ (addr < c.base ∧ c.base < addr + size) := by omega
  simp [classify, h1, h2]

/-- A defined access is an aligned one inside the window. -/
theorem classify_eq_defined {c : Config} {addr size off : Nat} (h : classify c addr size = .defined off) :
    off < 0x1000 ∧ off % 4 = 0 := by
  unfold classify at h
  split at h
  · rename_i hw
    split at h
    · cases h; simp only [InWindow, windowBytes] at hw; omega
    · cases h
  · split at h <;> cases h

@[simp] theorem decodeOffset_info (W : Nat) : decodeOffset W 0x000 = .info := rfl
@[simp] theorem decodeOffset_ctrl (W : Nat) : decodeOffset W 0x004 = .ctrl := rfl
@[simp] theorem decodeOffset_cmd (W : Nat) : decodeOffset W 0x008 = .cmd := rfl
@[simp] theorem decodeOffset_status (W : Nat) : decodeOffset W 0x00C = .status := rfl

/-- The 256 bytes from `XB` on are the limbs of the wide register `X`, a word each (rules R30, R31). -/
theorem decodeOffset_window (W : Nat) (x : WideReg) {off : Nat} (h : x.start ≤ off ∧ off < x.start + 0x100) :
    decodeOffset W off = limbTarget W x ((off - x.start) / 4) := by
  cases x <;> simp only [WideReg.start] at h ⊢ <;> simp (disch := omega) only [decodeOffset, if_neg, if_pos]

/-- Limb `k` of a wide register stands at `XB + 4k` (rule R31). -/
theorem decodeOffset_limb (W : Nat) (x : WideReg) {k : Nat} (h : k < 64) :
    decodeOffset W (x.start + 4 * k) = limbTarget W x k := by
  rw [decodeOffset_window W x (by omega), show (x.start + 4 * k - x.start) / 4 = k by omega]

/-- Every target an aligned offset of the window can lead to (rule R30). -/
inductive TargetForm (W off : Nat) : Target → Prop where
  | info (h : off = 0x000) : TargetForm W off .info
  | ctrl (h : off = 0x004) : TargetForm W off .ctrl
  | cmd (h : off = 0x008) : TargetForm W off .cmd
  | status (h : off = 0x00C) : TargetForm W off .status
  | limb (x : WideReg) (k : Nat) (hk : k < W / 32) (h : x.start ≤ off ∧ off < x.start + 0x100)
      (hk' : k = (off - x.start) / 4) : TargetForm W off (.limb x k)
  | unusedLimb (x : WideReg) (h : x.start ≤ off ∧ off < x.start + 0x100) (hk : W / 32 ≤ (off - x.start) / 4) :
      TargetForm W off .reserved
  | reserved (h : (0x00C < off ∧ off < 0x100) ∨ 0x600 ≤ off ∨ off % 4 ≠ 0) : TargetForm W off .reserved

theorem limbTarget_form {W off : Nat} (x : WideReg) (h : x.start ≤ off ∧ off < x.start + 0x100) :
    TargetForm W off (limbTarget W x ((off - x.start) / 4)) := by
  unfold limbTarget
  split
  · exact .limb x _ ‹_› h rfl
  · exact .unusedLimb x h (by omega)

/-- The register map, said once (rule R30). -/
theorem decodeOffset_form (W off : Nat) : TargetForm W off (decodeOffset W off) := by
  unfold decodeOffset
  split
  · exact .info ‹_›
  split
  · exact .ctrl ‹_›
  split
  · exact .cmd ‹_›
  split
  · exact .status ‹_›
  split
  · exact .reserved (by omega)
  split
  · exact limbTarget_form .opa (by simp only [WideReg.start]; omega)
  split
  · exact limbTarget_form .opb (by simp only [WideReg.start]; omega)
  split
  · exact limbTarget_form .opc (by simp only [WideReg.start]; omega)
  split
  · exact limbTarget_form .res0 (by simp only [WideReg.start]; omega)
  split
  · exact limbTarget_form .res1 (by simp only [WideReg.start]; omega)
  · exact .reserved (by omega)

/-! ### Register writes -/

section
variable {W : Nat} (r : Regs W) (v : Word)

@[simp] theorem writeOffset_ctrl : writeOffset r 0x004 v = writeCtrl r v := rfl
@[simp] theorem writeOffset_cmd : writeOffset r 0x008 v = writeCmd r v := rfl
@[simp] theorem writeOffset_status : writeOffset r 0x00C v = writeStatus r v := rfl
@[simp] theorem readOffset_ctrl : readOffset r 0x004 = ctrlWord r := rfl
@[simp] theorem readOffset_cmd : readOffset r 0x008 = r.cmd := rfl
@[simp] theorem readOffset_status : readOffset r 0x00C = statusWord r := rfl

theorem writeCtrl_reset (h : v.getLsbD 1 = true) : writeCtrl r v = Regs.reset W := by
  simp [writeCtrl, h]

theorem writeCtrl_start_idle (h1 : v.getLsbD 1 = false) (h0 : v.getLsbD 0 = true) (hb : r.busy = false) :
    writeCtrl r v = { acceptStart r with ien := v.getLsbD 2 } := by
  simp only [writeCtrl, h1, h0, hb]; rfl

theorem writeCtrl_start_busy (h1 : v.getLsbD 1 = false) (h0 : v.getLsbD 0 = true) (hb : r.busy = true) :
    writeCtrl r v = { dropWrite r with ien := v.getLsbD 2 } := by
  simp only [writeCtrl, h1, h0, hb]; rfl

theorem writeCtrl_ien (h1 : v.getLsbD 1 = false) (h0 : v.getLsbD 0 = false) :
    writeCtrl r v = { r with ien := v.getLsbD 2 } := by
  simp only [writeCtrl, h1, h0]; rfl

theorem writeCmd_idle (hb : r.busy = false) : writeCmd r v = { r with cmd := v } := by
  simp only [writeCmd, hb]; rfl

theorem writeCmd_busy (hb : r.busy = true) : writeCmd r v = dropWrite r := by
  simp [writeCmd, hb]

theorem writeLimb_idle (x : WideReg) (k : Nat) (hx : x.isOperand = true) (hb : r.busy = false) :
    writeLimb r x k v = r.setOperand x (setLimb (r.wide x) k v) := by
  simp [writeLimb, hx, hb]

theorem writeLimb_busy (x : WideReg) (k : Nat) (hx : x.isOperand = true) (hb : r.busy = true) :
    writeLimb r x k v = dropWrite r := by
  simp [writeLimb, hx, hb]

theorem writeLimb_result (x : WideReg) (k : Nat) (hx : x.isOperand = false) : writeLimb r x k v = r := by
  simp [writeLimb, hx]

/-- All that a write to the window can do to the registers (rules R35 to R38, R47, R48, R50, R66). -/
inductive WriteEffect (off : Nat) : Regs W → Prop where
  | ignored : WriteEffect off r
  | softReset (h : off = 0x004 ∧ v.getLsbD 1 = true) : WriteEffect off (Regs.reset W)
  | started (h : v.getLsbD 1 = false ∧ r.busy = false) (ien : Bool) :
      WriteEffect off { acceptStart r with ien := ien }
  | startDropped (h : r.busy = true) (ien : Bool) : WriteEffect off { dropWrite r with ien := ien }
  | enabled (ien : Bool) : WriteEffect off { r with ien := ien }
  | dropped (h : r.busy = true) : WriteEffect off (dropWrite r)
  | command (h : r.busy = false) : WriteEffect off { r with cmd := v }
  | cleared (d l : Bool) (hd : d = true → r.done = true) (hl : l = true → r.lost = true) :
      WriteEffect off { r with done := d, lost := l }
  | operand (h : r.busy = false) (x : WideReg) (y : BitVec W) : WriteEffect off (r.setOperand x y)

theorem writeOffset_effect (off : Nat) : WriteEffect r v off (writeOffset r off v) := by
  have h := decodeOffset_form W off
  unfold writeOffset
  generalize decodeOffset W off = t at h
  cases h with
  | info h => exact .ignored
  | ctrl h =>
    cases h1 : v.getLsbD 1
    · cases h0 : v.getLsbD 0
      · simpa only [writeTarget, writeCtrl_ien r v h1 h0] using .enabled _
      · cases hb : r.busy
        · simpa only [writeTarget, writeCtrl_start_idle r v h1 h0 hb] using .started ⟨h1, hb⟩ _
        · simpa only [writeTarget, writeCtrl_start_busy r v h1 h0 hb] using .startDropped hb _
    · simpa only [writeTarget, writeCtrl_reset r v h1] using .softReset ⟨h, h1⟩
  | cmd h =>
    cases hb : r.busy
    · simpa only [writeTarget, writeCmd_idle r v hb] using .command hb
    · simpa only [writeTarget, writeCmd_busy r v hb] using .dropped hb
  | status h => exact .cleared _ _ (by simp_all) (by simp_all)
  | limb x k hk h hk' =>
    cases hx : x.isOperand
    · simpa only [writeTarget, writeLimb_result r v x k hx] using .ignored
    · cases hb : r.busy
      · simpa only [writeTarget, writeLimb_idle r v x k hx hb] using .operand hb x _
      · simpa only [writeTarget, writeLimb_busy r v x k hx hb] using .dropped hb
  | unusedLimb x h hk => exact .ignored
  | reserved h => exact .ignored

end

/-! ### One turn, one step -/

/-- The words read last are those the newest reads returned, the oldest of them first (rule R88). -/
theorem lastWords_append (ws : List Word) (older : List (Option Word)) :
    lastWords ws.length ((ws.map some).reverse ++ older) = some ws := by
  induction ws using List.reverseRecOn with
  | nil => rfl
  | append_singleton ws w ih => simp [lastWords, ih]

/-- What a `collect` after the reads of the limbs of a register forms: the register's value (rules R86, R88, R90). -/
theorem hostCollect_of_limbs {s : State} {x : BitVec s.cfg.W} {older : List (Option Word)} (hW : s.cfg.W % 32 = 0)
    (h : s.rdata = ((List.range s.cfg.limbs).map fun k => some (limb x k)).reverse ++ older) (rest : List HostOp) :
    hostCollect s rest = { s with host := rest, got := val x :: s.got } := by
  have hl := lastWords_append ((List.range s.cfg.limbs).map (limb x)) older
  simp only [List.length_map, List.length_range, List.map_map] at hl
  have h' : lastWords s.cfg.limbs s.rdata = some ((List.range s.cfg.limbs).map (limb x)) := by rw [h]; exact hl
  rw [hostCollect, h']
  simp only [ofLimbs_limbs hW x]

/-- A `collect` is taken from the host's queue and adds at most a value formed; nothing of the core changes (rule R90). -/
theorem hostCollect_eq (s : State) (rest : List HostOp) :
    ∃ g : List Int, hostCollect s rest = { s with host := rest, got := g } := by
  unfold hostCollect
  split
  · exact ⟨_, rfl⟩
  · exact ⟨s.got, rfl⟩

/-- All that a host turn which stays within the contract can do: registers by one write, or nothing; and the environment's
fields (rules R65, R66, R131). -/
theorem hostTurn_cases {s t : State} (h : hostTurn s = .next t) :
    ∃ r : Regs s.cfg.W,
      t = { s with regs := r, host := t.host, rdata := t.rdata, got := t.got, free := t.free } ∧
      (r = s.regs ∨ (s.rst = false ∧ ∃ addr size off v rest, s.host = .write addr size v :: rest ∧ t.host = rest ∧
        classify s.cfg addr size = .defined off ∧ r = writeOffset s.regs off v)) ∧
      (s.rst = false → t.free = s.free) ∧ (∀ op ∈ t.host, op ∈ s.host) := by
  have hread : ∀ (u t : State) (addr size : Nat), busRead u addr size = .next t →
      t = { u with rdata := t.rdata, free := t.free } ∧ (u.rst = false → t.free = u.free) := by
    intro u t addr size h
    unfold busRead at h
    split at h
    · cases h; exact ⟨rfl, fun _ => rfl⟩
    · cases h
    · split at h
      · rename_i hrst
        cases h; exact ⟨rfl, fun hr => absurd (hr.symm.trans hrst) (by decide)⟩
      · cases h; exact ⟨rfl, fun _ => rfl⟩
  unfold hostTurn at h
  split at h
  · cases h; exact ⟨s.regs, rfl, .inl rfl, fun _ => rfl, fun _ h => h⟩
  · rename_i addr size rest hh
    obtain ⟨h1, h2⟩ := hread _ _ _ _ h
    rw [h1]
    exact ⟨s.regs, rfl, .inl rfl, h2, fun op ho => by rw [hh]; exact List.mem_cons_of_mem _ ho⟩
  · rename_i addr size v rest hh
    unfold busWrite at h
    split at h
    · cases h; exact ⟨s.regs, rfl, .inl rfl, fun _ => rfl, by simp_all⟩
    · cases h
    · rename_i off hoff
      split at h
      · cases h; exact ⟨s.regs, rfl, .inl rfl, fun _ => rfl, by simp_all⟩
      · rename_i hrst
        cases h
        exact ⟨_, rfl, .inr ⟨by simpa using hrst, addr, size, off, v, rest, hh, rfl, hoff, rfl⟩, fun _ => rfl, by simp_all⟩
  · rename_i rest hh
    unfold hostWait at h
    split at h
    · rename_i u hu
      obtain ⟨h1, h2⟩ := hread _ _ _ _ hu
      split at h
      · cases h; rw [h1]; exact ⟨s.regs, rfl, .inl rfl, h2, fun _ h => h⟩
      · cases h; rw [h1]; exact ⟨s.regs, rfl, .inl rfl, h2, fun op ho => by rw [hh]; exact List.mem_cons_of_mem _ ho⟩
    · cases h
    · cases h
  · rename_i rest hh
    cases h
    have hm : ∀ op ∈ rest, op ∈ s.host := fun op ho => by rw [hh]; exact List.mem_cons_of_mem _ ho
    obtain ⟨g, hg⟩ := hostCollect_eq s rest
    rw [hg]
    exact ⟨s.regs, rfl, .inl rfl, fun _ => rfl, hm⟩

/-- The result of the command in progress: an illegal word ends with `ILLEGAL_COMMAND` (rules R115, R118). -/
def outcomeOf (s : State) : CommandResult s.cfg.W :=
  match decodeWord s.regs.cmd with
  | .ok i => commandOf s.cfg.W s.valA s.valB s.valC i
  | .error _ => .error .illegalCommand

/-- All that a completion does (rule R118). -/
theorem completion_eq (s : State) : completion s = .next { s with regs := finish s.regs (outcomeOf s) } := by
  unfold completion outcomeOf
  cases decodeWord s.regs.cmd with
  | ok i => exact exec_eq_complete i s
  | error e => rfl

/-- The turn a step takes, and the turns it leaves. -/
def nextTurn (s : State) : Turn :=
  match s.sched with
  | [] => defaultTurn s
  | t :: _ => t

theorem step_eq (s : State) : step s = takeTurn (nextTurn s) { s with sched := s.sched.tail } := by
  unfold step nextTurn
  cases s with
  | mk cfg regs rst host sched rdata got free => cases sched <;> rfl

/-- All that a step can do, said once (rules R21, R118, R131): a completion, a host turn, a move of the reset input, or a
core's turn with nothing to do. -/
theorem step_cases {s t : State} (h : step s = .next t) :
    (nextTurn s = .core ∧ s.regs.busy = true ∧ s.rst = false ∧
      t = { s with sched := s.sched.tail, regs := finish s.regs (outcomeOf s) }) ∨
    (nextTurn s = .core ∧ (s.regs.busy = false ∨ s.rst = true) ∧ t = { s with sched := s.sched.tail }) ∨
    (nextTurn s = .host ∧ hostTurn { s with sched := s.sched.tail } = .next t) ∨
    (nextTurn s = .assertReset ∧ t = { s with sched := s.sched.tail, rst := true }) ∨
    (nextTurn s = .releaseReset ∧
      t = if s.rst then { s with sched := s.sched.tail, rst := false, regs := Regs.reset s.cfg.W }
        else { s with sched := s.sched.tail }) := by
  rw [step_eq] at h
  cases hn : nextTurn s <;> rw [hn] at h
  · exact .inr (.inr (.inl ⟨rfl, h⟩))
  · simp only [takeTurn, coreTurn] at h
    split at h
    · rw [completion_eq] at h
      cases h
      rename_i hb
      simp only [Bool.and_eq_true, Bool.not_eq_true'] at hb
      exact .inl ⟨rfl, hb.1, hb.2, rfl⟩
    · cases h
      rename_i hb
      refine .inr (.inl ⟨rfl, ?_, rfl⟩)
      cases h1 : s.regs.busy <;> cases h2 : s.rst <;> simp_all
  · cases h; exact .inr (.inr (.inr (.inl ⟨rfl, rfl⟩)))
  · cases h
    refine .inr (.inr (.inr (.inr ⟨rfl, ?_⟩)))
    cases hr : s.rst
    · rfl
    · rfl

end Sys2Proof.Machine
end

