-- ==== Sys2Proof/Laws/Loops.lean ====
section
/-! SUPPORT. What one pass of each of the two loops keeps (Machine/Inverse.lean, Machine/PowMod.lean), and so any number of
passes. -/

namespace Sys2Proof.Machine

/-- What every pass of the Euclidean loop keeps (rule R103): remainders in `[0, m]`, coefficients within `m`, each
coefficient the remainder's Bézout coefficient for `a`, and the gcd. -/
structure Euclid.Sound (a m : Int) (e : Euclid) : Prop where
  r_nonneg : 0 ≤ e.r
  oldR_nonneg : 0 ≤ e.oldR
  r_le : e.r ≤ m
  oldR_le : e.oldR ≤ m
  bezout_s : m ∣ a * e.s - e.r
  bezout_oldS : m ∣ a * e.oldS - e.oldR
  cross : e.oldR * |e.s| + e.r * |e.oldS| = m
  opposite : e.s * e.oldS ≤ 0
  same_gcd : Int.gcd e.oldR e.r = Int.gcd a m
  s_le : |e.s| ≤ m
  oldS_le : |e.oldS| ≤ m

theorem Euclid.start_sound {a m : Int} (h0 : 0 ≤ a) (hm : a < m) : Euclid.Sound a m (Euclid.start a m) := by
  constructor <;> simp [Euclid.start] <;> omega

/-- Coefficients of opposite sign add up in absolute value. -/
theorem abs_sub_mul_of_opposite {x y q : Int} (h : y * x ≤ 0) (hq : 0 ≤ q) : |x - q * y| = |x| + q * |y| := by
  rcases lt_trichotomy y 0 with hy | rfl | hy
  · have hx : 0 ≤ x := by by_contra hc; push Not at hc; nlinarith
    rw [abs_of_nonneg (by nlinarith), abs_of_nonneg hx, abs_of_neg hy]; ring
  · simp
  · have hx : x ≤ 0 := by by_contra hc; push Not at hc; nlinarith
    rw [abs_of_nonpos (by nlinarith), abs_of_nonpos hx, abs_of_pos hy]; ring

/-- One pass keeps what is sound and strictly decreases the remainder (rule R103). -/
theorem euclidPass_sound {a m : Int} {e : Euclid} (h : Euclid.Sound a m e) (hr : e.r ≠ 0) :
    Euclid.Sound a m (euclidPass e) ∧ (euclidPass e).r < e.r := by
  obtain ⟨r0, o0, rm, om, d1, d2, cross, opp, gcd, sm, osm⟩ := h
  obtain ⟨oldR, r, oldS, s⟩ := e
  simp only [euclidPass] at *
  have hp : 0 < r := by omega
  have ⟨h1, h2⟩ := floor_remainder_of_pos oldR hp
  have hq0 : 0 ≤ fdiv oldR r := by rw [fdiv_of_pos _ hp]; exact Int.ediv_nonneg o0 r0
  generalize fdiv oldR r = q at *
  have habs : |oldS - q * s| = |oldS| + q * |s| := abs_sub_mul_of_opposite opp hq0
  have hr' : oldR - q * r = oldR - r * q := by ring
  have hcross : r * |oldS - q * s| + (oldR - q * r) * |s| = m := by rw [habs, ← cross]; ring
  have hns : |oldS - q * s| ≤ m := by
    have h3 : 0 ≤ (oldR - q * r) * |s| := mul_nonneg (by omega) (abs_nonneg s)
    have h4 : 0 ≤ |oldS - q * s| := abs_nonneg _
    nlinarith
  refine ⟨⟨by dsimp only; omega, r0, by dsimp only; omega, rm, ?_, d1, hcross, ?_, ?_, hns, sm⟩, by omega⟩
  · have : a * (oldS - q * s) - (oldR - q * r) = (a * oldS - oldR) - q * (a * s - r) := by ring
    rw [this]; exact dvd_sub d2 (Dvd.dvd.mul_left d1 q)
  · dsimp only
    nlinarith [mul_self_nonneg s, mul_nonneg hq0 (mul_self_nonneg s)]
  · have : oldR - q * r = oldR + r * (-q) := by ring
    rw [← gcd, Int.gcd_comm, this]
    simp [Int.gcd_comm]

/-- Any number of passes keeps what is sound. -/
theorem euclidLoop_sound {a m : Int} (n : Nat) {e : Euclid} (h : Euclid.Sound a m e) :
    Euclid.Sound a m (euclidLoop n e) := by
  induction n generalizing e with
  | zero => exact h
  | succ n ih =>
    simp only [euclidLoop]
    split
    · exact h
    · exact ih (euclidPass_sound h ‹_›).1

/-- What every pass of the square-and-multiply loop keeps (rule R105): the exponent is not negative, accumulator and base are
reduced, and `acc * b^k` stays the power modulo `m`. -/
structure Power.Sound (base e m : Int) (p : Power) : Prop where
  k_nonneg : 0 ≤ p.k
  acc_nonneg : 0 ≤ p.acc
  acc_lt : p.acc < m
  b_nonneg : 0 ≤ p.b
  b_lt : p.b < m
  same_power : p.acc * p.b ^ p.k.toNat ≡ base ^ e.toNat [ZMOD m]

theorem Power.start_sound {base e m : Int} (hm : 0 < m) (he : 0 ≤ e) : Power.Sound base e m (Power.start base e m) := by
  refine ⟨he, nnmod_nonneg _ hm, nnmod_lt _ hm, nnmod_nonneg _ hm, nnmod_lt _ hm, ?_⟩
  simp only [Power.start, nnmod_of_pos _ hm]
  simpa using (Int.mod_modEq 1 m).mul ((Int.mod_modEq base m).pow e.toNat)

/-- One pass keeps what is sound (rule R105). -/
theorem powPass_sound {base e m : Int} (hm : 0 < m) {p : Power} (h : Power.Sound base e m p) :
    Power.Sound base e m (powPass m p) := by
  obtain ⟨hk, a0, a1, b0, b1, hp⟩ := h
  obtain ⟨acc, b, k⟩ := p
  have h2 : fdiv k 2 = k / 2 := fdiv_of_pos _ (by norm_num)
  have h3 : nnmod k 2 = k % 2 := nnmod_of_pos _ (by norm_num)
  simp only [powPass, h2, h3] at *
  refine ⟨by dsimp only; omega, ?_, ?_, nnmod_nonneg _ hm, nnmod_lt _ hm, ?_⟩
  · dsimp only; split
    · exact nnmod_nonneg _ hm
    · exact a0
  · dsimp only; split
    · exact nnmod_lt _ hm
    · exact a1
  · refine Int.ModEq.trans ?_ hp
    have hkn : (k / 2).toNat = k.toNat / 2 := by omega
    have hb : (nnmod (b * b) m) ^ (k.toNat / 2) ≡ b ^ (2 * (k.toNat / 2)) [ZMOD m] := by
      rw [nnmod_of_pos _ hm, pow_mul, pow_two]; exact (Int.mod_modEq _ _).pow _
    dsimp only
    rw [hkn]
    split
    · have hodd : k.toNat = 2 * (k.toNat / 2) + 1 := by omega
      have hacc : nnmod (acc * b) m ≡ acc * b [ZMOD m] := by rw [nnmod_of_pos _ hm]; exact Int.mod_modEq _ _
      refine (hacc.mul hb).trans ?_
      conv_rhs => rw [hodd]
      rw [pow_succ]; ring_nf; rfl
    · have heven : k.toNat = 2 * (k.toNat / 2) := by omega
      conv_rhs => rw [heven]
      exact Int.ModEq.mul_left _ hb

/-- Any number of passes keeps what is sound. -/
theorem powLoop_sound {base e m : Int} (hm : 0 < m) (n : Nat) {p : Power} (h : Power.Sound base e m p) :
    Power.Sound base e m (powLoop m n p) := by
  induction n generalizing p with
  | zero => exact h
  | succ n ih =>
    simp only [powLoop]
    split
    · exact ih (powPass_sound hm h)
    · exact h

/-- `n` passes halve the exponent `n` times, rounding down (rule R105). -/
theorem powLoop_k (m : Int) (n : Nat) (p : Power) (h : 0 ≤ p.k) : (powLoop m n p).k = p.k / 2 ^ n := by
  induction n generalizing p with
  | zero => simp [powLoop]
  | succ n ih =>
    have h2 : fdiv p.k 2 = p.k / 2 := fdiv_of_pos _ (by norm_num)
    simp only [powLoop]
    split
    · rw [ih _ (by simp only [powPass, h2]; omega)]
      simp only [powPass, h2]
      rw [Int.ediv_ediv_of_nonneg (by norm_num), pow_succ, mul_comm]
    · have : p.k = 0 := by omega
      simp [this]

/-- `bitlen` bounds its argument from both sides (rule R15). -/
theorem lt_two_pow_bitlen (n : Nat) : n < 2 ^ bitlen n := by
  unfold bitlen
  split
  · omega
  · exact Nat.lt_log2_self

theorem two_pow_le_of_lt_bitlen {n k : Nat} (h : k < bitlen n) : 2 ^ k ≤ n := by
  unfold bitlen at h
  split at h
  · omega
  · exact (Nat.le_log2 ‹_›).1 (by omega)

end Sys2Proof.Machine
end

