-- ==== Sys2Proof/Laws/PerInstr.lean ====
section
/-! SUPPORT. The statements made for every instruction of `Instr`, one lemma per constructor. -/

namespace Sys2Proof.Laws.EncodingRange

/-- The word of a command is its opcode, 1 to 9, and no bit above it (rules R82, R83). -/
def Statement (i : Instr) : Prop := 1 ≤ (encode i).toNat ∧ (encode i).toNat ≤ 9 ∧ rsvdField (encode i) = 0

theorem add : Statement .add := ⟨by decide, by decide, by decide⟩
theorem sub : Statement .sub := ⟨by decide, by decide, by decide⟩
theorem mul : Statement .mul := ⟨by decide, by decide, by decide⟩
theorem div : Statement .div := ⟨by decide, by decide, by decide⟩
theorem mod : Statement .mod := ⟨by decide, by decide, by decide⟩
theorem divmod : Statement .divmod := ⟨by decide, by decide, by decide⟩
theorem cmp : Statement .cmp := ⟨by decide, by decide, by decide⟩
theorem inv : Statement .inv := ⟨by decide, by decide, by decide⟩
theorem powmod : Statement .powmod := ⟨by decide, by decide, by decide⟩

end Sys2Proof.Laws.EncodingRange
end

