-- ==== Sys2Proof/Laws/Run.lean ====
section
/-! SUPPORT. Runs of several steps (Host/Core.lean's `run`), one step at a time, and what the schedule of a run without a
reset can hold. -/

namespace Sys2Proof.Machine

@[simp] theorem run_zero (s : State) : Sys2Proof.core.run 0 s = .next s := rfl

/-- A run of one step more is the step, then the rest of the run. -/
theorem run_succ {s t : State} (h : step s = .next t) (n : Nat) : Sys2Proof.core.run (n + 1) s = Sys2Proof.core.run n t := by
  have h' : Sys2Proof.core.step s = .next t := h
  simp only [Host.Core.run, h']

/-- Without a reset only the two agents move (rule R145). -/
theorem nextTurn_of_resetFree {s : State} (h : s.ResetFree) : nextTurn s = .core ∨ nextTurn s = .host := by
  unfold nextTurn
  split
  · unfold defaultTurn; split <;> simp
  · rename_i t ts hs
    have := h.turns t (by rw [hs]; exact List.mem_cons_self)
    cases t with
    | host => exact .inr rfl
    | core => exact .inl rfl
    | assertReset => exact this.elim
    | releaseReset => exact this.elim

/-- Without a reset the write at the head of the host's queue is no soft reset (rules R36, R145). -/
theorem no_soft_reset_at_head {s : State} {addr size off : Nat} {v : Word} {rest : List HostOp} (hf : s.ResetFree)
    (hs : s.host = .write addr size v :: rest) (hc : classify s.cfg addr size = .defined off) :
    ¬ (off = 0x004 ∧ v.getLsbD 1 = true) := by
  rintro ⟨rfl, h⟩
  have h2 : HostOp.NoSoftReset s.cfg (.write addr size v) :=
    hf.no_soft_reset _ (by rw [hs]; exact List.mem_cons_self)
  rw [h2 hc] at h
  cases h

/-- The result of the command in progress is an illegal command, or of one of the forms of a command. -/
theorem outcomeOf_form (s : State) :
    outcomeOf s = .error .illegalCommand ∨ ∃ i, ResultForm s.cfg.W i (outcomeOf s) := by
  unfold outcomeOf
  cases decodeWord s.regs.cmd with
  | ok i => exact .inr ⟨i, commandOf_form _ _ _ _ i⟩
  | error e => exact .inl rfl

/-- The host's queue never grows and the configuration never changes (rule R23). -/
theorem step_host_cfg {s t : State} (h : step s = .next t) : (∀ op ∈ t.host, op ∈ s.host) ∧ t.cfg = s.cfg := by
  rcases step_cases h with ⟨-, -, -, h⟩ | ⟨-, -, h⟩ | ⟨-, h⟩ | ⟨-, h⟩ | ⟨-, h⟩
  · subst h; exact ⟨fun _ h => h, rfl⟩
  · subst h; exact ⟨fun _ h => h, rfl⟩
  · obtain ⟨r, he, _, _, hm⟩ := hostTurn_cases h
    exact ⟨hm, by rw [he]⟩
  · subst h; exact ⟨fun _ h => h, rfl⟩
  · split at h <;> (subst h; exact ⟨fun _ h => h, rfl⟩)

/-- A host turn within the contract answers a next state (rule R129). -/
theorem hostTurn_ok {s : State} (h : ∀ op ∈ s.host, op.InContract s.cfg) : ∃ t, hostTurn s = .next t := by
  have hr : ∀ (u : State) (addr size : Nat), classify u.cfg addr size ≠ .undefined →
      ∃ t, busRead u addr size = .next t := by
    intro u addr size h
    unfold busRead
    split
    · exact ⟨_, rfl⟩
    · contradiction
    · split <;> exact ⟨_, rfl⟩
  unfold hostTurn
  split
  · exact ⟨_, rfl⟩
  · rename_i addr size rest hh
    exact hr _ _ _ (h (.read addr size) (by rw [hh]; exact List.mem_cons_self))
  · rename_i addr size v rest hh
    have hc : classify s.cfg addr size ≠ .undefined :=
      h (.write addr size v) (by rw [hh]; exact List.mem_cons_self)
    unfold busWrite
    split
    · exact ⟨_, rfl⟩
    · contradiction
    · split <;> exact ⟨_, rfl⟩
  · unfold hostWait
    obtain ⟨t, ht⟩ := hr s (statusAddr s.cfg) 4 (by simp [statusAddr, classify_defined])
    rw [ht]
    dsimp only
    split <;> exact ⟨_, rfl⟩
  · exact ⟨_, rfl⟩

/-- A step of a machine whose host keeps to the contract answers a next state. -/
theorem step_ok {s : State} (h : ∀ op ∈ s.host, op.InContract s.cfg) : ∃ t, step s = .next t := by
  rw [step_eq]
  cases nextTurn s
  · exact hostTurn_ok (s := { s with sched := s.sched.tail }) h
  · simp only [takeTurn, coreTurn]
    split
    · exact ⟨_, completion_eq _⟩
    · exact ⟨_, rfl⟩
  · exact ⟨_, rfl⟩
  · exact ⟨_, rfl⟩

end Sys2Proof.Machine
end

