-- ==== Sys2Proof/Tests/Slice0.lean ====
section
/-! SUPPORT. The model's own tests, each one step or one decoding on a small state. Expected results are those of
spec/95_test_vectors.md sections 2.1 to 2.11 (the section and row are named) or of the rule named. The last part gives, for
each statement with hypotheses, a concrete state and operands that meet them. -/

namespace Sys2Proof.Tests

open Sys2Proof.Machine

/-! ### WellFormed: each check refuses an ill-formed term (rules R6, R8, R83, R57 to R60) -/

theorem test_config_legal : Config.WellFormed { W := 64, base := 0x1000 } := by decide
theorem test_config_width_not_multiple_of_32 : ¬ Config.WellFormed { W := 72, base := 0 } := by decide
theorem test_config_width_too_small : ¬ Config.WellFormed { W := 32, base := 0 } := by decide
theorem test_config_width_too_large : ¬ Config.WellFormed { W := 2080, base := 0 } := by decide
theorem test_config_base_not_aligned : ¬ Config.WellFormed { W := 64, base := 0x800 } := by decide
theorem test_word_legal : LegalWord 0x00000009#32 := by decide
theorem test_word_reserved_opcode_low : ¬ LegalWord 0x00000000#32 := by decide
theorem test_word_reserved_opcode_high : ¬ LegalWord 0x0000000A#32 := by decide
theorem test_word_reserved_bits : ¬ LegalWord 0x80000009#32 := by decide
theorem test_access_defined : DefinedAccess { W := 64, base := 0x1000 } 0x1FFC 4 := by decide
theorem test_access_misaligned : ¬ DefinedAccess { W := 64, base := 0x1000 } 0x1102 4 := by decide
theorem test_access_byte : ¬ DefinedAccess { W := 64, base := 0x1000 } 0x1100 1 := by decide
theorem test_access_outside : ¬ DefinedAccess { W := 64, base := 0x1000 } 0x2000 4 := by decide

/-! ### Decoding: each command's word, written out from rule R82 (RSVD in bits 31 to 4, OP in bits 3 to 0) -/

theorem test_decode_add : decodeWord (0b0000000000000000000000000000#28 ++ 0b0001#4) = .ok .add := by rfl
theorem test_decode_sub : decodeWord (0b0000000000000000000000000000#28 ++ 0b0010#4) = .ok .sub := by rfl
theorem test_decode_mul : decodeWord (0b0000000000000000000000000000#28 ++ 0b0011#4) = .ok .mul := by rfl
theorem test_decode_div : decodeWord (0b0000000000000000000000000000#28 ++ 0b0100#4) = .ok .div := by rfl
theorem test_decode_mod : decodeWord (0b0000000000000000000000000000#28 ++ 0b0101#4) = .ok .mod := by rfl
theorem test_decode_divmod : decodeWord (0b0000000000000000000000000000#28 ++ 0b0110#4) = .ok .divmod := by rfl
theorem test_decode_cmp : decodeWord (0b0000000000000000000000000000#28 ++ 0b0111#4) = .ok .cmp := by rfl
theorem test_decode_inv : decodeWord (0b0000000000000000000000000000#28 ++ 0b1000#4) = .ok .inv := by rfl
theorem test_decode_powmod : decodeWord (0b0000000000000000000000000000#28 ++ 0b1001#4) = .ok .powmod := by rfl
/-- Section 2.10: OP 1 with a nonzero RSVD is illegal. -/
theorem test_decode_reserved_bits : decodeWord 0x00000011#32 = .error .reservedBits := by rfl
/-- Rules R61, R79: the first byte is the least significant, and three bytes are no word. -/
theorem test_decode_bytes : decodeBytes [0x09, 0x00, 0x00, 0x00, 0xFF] = .ok (.powmod, [0xFF]) := by rfl
theorem test_decode_bytes_order : decodeBytes [0x00, 0x00, 0x00, 0x09] = .error .reservedBits := by rfl
theorem test_decode_truncated : decodeBytes [0x09, 0x00, 0x00] = .error .truncated := by rfl
theorem test_table_word : decodeTableWord 32 6 = some .divmod := by rfl

/-! ### Commands: one step from a small state -/

/-- The reset state with operands, and `RES0 = 77`, `RES1 = 88` to be seen kept or written. -/
def withOperands (a b c : Int) : State :=
  { State.reset with regs := { Regs.reset 64 with
      opa := enc 64 a, opb := enc 64 b, opc := enc 64 c, res0 := enc 64 77, res1 := enc 64 88 } }

/-- `RES0`, `RES1` and `STATUS` after the next step, with a command word in progress (`STATUS` as rule R40 lays it out). -/
def after (word : Nat) (s : State) : Option (Int × Int × Word) :=
  match step (s.withFetchWord 32 word) with
  | .next t => some (val t.regs.res0, val t.regs.res1, statusWord t.regs)
  | .fault _ => none
  | .refused _ => none

/-- `MAX` at `W = 64`. -/
abbrev maxW : Int := 9223372036854775807
/-- `MIN` at `W = 64`. -/
abbrev minW : Int := -9223372036854775808

/-- Section 2.1: extremes cancel. -/
theorem test_add_extremes : after 1 (withOperands maxW minW 0) = some (-1, 88, 0x002) := by decide
/-- Section 2.1: positive overflow, no result written, `STATUS` as in P3. -/
theorem test_add_overflow : after 1 (withOperands maxW 1 0) = some (77, 88, 0x026) := by decide
/-- Section 2.2: reaches MIN exactly. -/
theorem test_sub_reaches_min : after 2 (withOperands (-1) maxW 0) = some (minW, 88, 0x002) := by decide
/-- Section 2.2: negating MIN overflows. -/
theorem test_sub_overflow : after 2 (withOperands 0 minW 0) = some (77, 88, 0x026) := by decide
/-- Section 2.4: product exactly MIN. -/
theorem test_mul_reaches_min : after 3 (withOperands (-4294967296) 2147483648 0) = some (minW, 88, 0x002) := by decide
/-- Section 2.4: the least overflowing square. -/
theorem test_mul_overflow : after 3 (withOperands 3037000500 3037000500 0) = some (77, 88, 0x026) := by decide
/-- Section 2.5: floor, not truncation, at a negative divisor. -/
theorem test_div_floor : after 4 (withOperands 7 (-2) 0) = some (-4, 88, 0x002) := by decide
/-- Section 2.5: the only overflowing quotient. -/
theorem test_div_overflow : after 4 (withOperands minW (-1) 0) = some (77, 88, 0x026) := by decide
/-- Section 2.6: the modulus is the absolute value, even of MIN. -/
theorem test_mod_by_min : after 5 (withOperands (-1) minW 0) = some (maxW, 88, 0x002) := by decide
/-- Section 2.6: zero divisor. -/
theorem test_mod_by_zero : after 5 (withOperands 5 0 0) = some (77, 88, 0x036) := by decide
/-- Section 2.7: both results. -/
theorem test_divmod_both : after 6 (withOperands (-7) 2 0) = some (-4, 1, 0x002) := by decide
/-- Section 2.7: neither result. -/
theorem test_divmod_neither : after 6 (withOperands minW (-1) 0) = some (77, 88, 0x026) := by decide
/-- Section 2.3: no wrapped subtraction; `STATUS` with GT as in P1. -/
theorem test_cmp_greater : after 7 (withOperands maxW (-1) 0) = some (77, 88, 0x402) := by decide
/-- Section 2.3: signed, not unsigned. -/
theorem test_cmp_less : after 7 (withOperands (-1) 0 0) = some (77, 88, 0x102) := by decide
/-- Section 2.8: the source's key. -/
theorem test_inv_key : after 8 (withOperands 65537 3120 0) = some (2753, 88, 0x002) := by decide
/-- Section 2.8: the source's example of a value that has no inverse; `STATUS` as in P3. -/
theorem test_inv_not_invertible : after 8 (withOperands 4 8 0) = some (77, 88, 0x056) := by decide
/-- Section 2.9: the block of the source's example. -/
theorem test_powmod_encrypt : after 9 (withOperands 72 17 3233) = some (3000, 88, 0x002) := by decide
/-- Section 2.9: a negative exponent. -/
theorem test_powmod_domain : after 9 (withOperands 4 (-1) 5) = some (77, 88, 0x046) := by decide
/-- Section 2.10: an illegal word; `STATUS` as in P3. -/
theorem test_illegal_word : after 0xA (withOperands 4 8 0) = some (77, 88, 0x016) := by decide

/-! ### The register window: section 2.11 -/

/-- The registers of `withOperands`, busy. -/
def busyRegs : Regs 64 := { (withOperands 1 2 3).regs with busy := true, cmd := 1, ien := true }

/-- Row 1: `INFO` at `W = 64`. -/
theorem test_info : readOffset (Regs.reset 64) 0x000 = 0x00010002 := by decide
/-- Row 5: an accepted START with `IEN`. -/
theorem test_start : statusWord (writeOffset { Regs.reset 64 with cmd := 1, done := true } 0x004 0x5) = 0x001 := by decide
/-- Row 6: a dropped START still clears `IEN`. -/
theorem test_start_dropped :
    (writeOffset busyRegs 0x004 0x1).lost = true ∧ (writeOffset busyRegs 0x004 0x1).ien = false := by decide
/-- Row 7: a dropped operand write. -/
theorem test_operand_dropped : writeOffset busyRegs 0x100 0x5 = { busyRegs with lost := true } := by decide
/-- Row 11: bit 1 wins over START and IEN. -/
theorem test_soft_reset : writeOffset busyRegs 0x004 0x7 = Regs.reset 64 := by decide
/-- Row 12: both bits cleared, the rest kept. -/
theorem test_write_one_to_clear :
    statusWord (writeOffset { Regs.reset 64 with done := true, lost := true, errcode := 5, gt := true } 0x00C 0xFFFFFFFF)
      = 0x454 := by decide
/-- Row 14: limb 2 does not exist at `W = 64`. -/
theorem test_unused_limb :
    writeOffset (Regs.reset 64) 0x108 0x1234 = Regs.reset 64 ∧ readOffset (Regs.reset 64) 0x108 = 0 := by decide
/-- Rows 19 and 20: one limb alone, then both. -/
theorem test_limbs : val (writeOffset (Regs.reset 64) 0x100 0xFFFFFFFF).opa = 4294967295 ∧
    val (writeOffset (writeOffset (Regs.reset 64) 0x100 0xFFFFFFFF) 0x104 0xFFFFFFFF).opa = -1 := by decide
/-- Row 18: a misaligned access. -/
theorem test_misaligned_access :
    hostTurn { State.reset with host := [.read 0x102 4] } = .fault (.undefinedAccess 0x102 4) := by rfl

/-- Program P3, reads 31 and 32 and `get RES0 -> r`: the limbs read, and MAX formed of them. -/
theorem test_get_forms_value :
    (hostCollect { State.reset with rdata := [some 0x7FFFFFFF#32, some 0xFFFFFFFF#32, some 0x00000002#32] } []).got
      = [maxW] := by decide
/-- Rule R90: one limb read is no value at `W = 64`. -/
theorem test_get_needs_its_reads :
    (hostCollect { State.reset with rdata := [some 0x7FFFFFFF#32, none] } []).got = [] := by decide

/-! ### Witnesses: for each statement with hypotheses, a state and operands that meet them -/

/-- `withOperands` with the core busy on a command word and given turns and accesses. -/
def inProgress (a b c : Int) (word : Word) (turns : List Turn) (ops : List HostOp) : State :=
  { withOperands a b c with
    regs := { (withOperands a b c).regs with cmd := word, busy := true }, sched := turns, host := ops }

theorem wit_TwosComplementValue : 0 < 64 ∧ Fits 64 minW ∧ Fits 64 maxW := by decide
theorem wit_FloorQuotientAndModulo : (-2 : Int) ≠ 0 ∧ (1 : Int) ≤ 1 := by decide
theorem wit_RegisterIsTheSumOfItsLimbs : 64 % 32 = 0 := by decide
theorem wit_LittleEndianLanesAndLimbs : 3 < 4 ∧ 7 < 8 ∧ 31 < 32 := by decide
theorem wit_EncodeOfDecode : decodeWord 0x00000009#32 = .ok .powmod := by rfl
theorem wit_IllegalWordsFailAtCompletion :
    (Regs.reset 64).busy = false ∧ ¬ LegalWord (inProgress 1 2 3 0x11 [] []).regs.cmd := by decide
theorem wit_AddExactOrOverflow :
    Fits 64 ((withOperands maxW minW 0).valA + (withOperands maxW minW 0).valB) ∧
    ¬ Fits 64 ((withOperands maxW 1 0).valA + (withOperands maxW 1 0).valB) ∧
    (withOperands maxW minW 0).cfg.WellFormed := by decide
theorem wit_SubExactOrOverflow :
    Fits 64 ((withOperands (-1) maxW 0).valA - (withOperands (-1) maxW 0).valB) ∧
    ¬ Fits 64 ((withOperands 0 minW 0).valA - (withOperands 0 minW 0).valB) ∧
    (withOperands (-1) maxW 0).cfg.WellFormed := by decide
theorem wit_MulExactOrOverflow :
    Fits 64 ((withOperands minW 1 0).valA * (withOperands minW 1 0).valB) ∧
    ¬ Fits 64 ((withOperands minW (-1) 0).valA * (withOperands minW (-1) 0).valB) ∧
    (withOperands minW 1 0).cfg.WellFormed := by decide
theorem wit_DivFloorQuotient :
    (withOperands 7 0 0).cfg.WellFormed ∧ (withOperands 7 0 0).valB = 0 ∧
    (withOperands minW (-1) 0).valA = minVal 64 ∧ (withOperands minW (-1) 0).valB = -1 ∧
    (withOperands minW 1 0).valB ≠ 0 ∧ (withOperands minW 1 0).valB ≠ -1 := by decide
theorem wit_ModNonNegativeRemainder :
    (withOperands (-1) minW 0).cfg.WellFormed ∧ (withOperands 5 0 0).valB = 0 ∧
    (withOperands (-1) minW 0).valB ≠ 0 := by decide
theorem wit_DivmodBothOrNeither :
    (withOperands 7 (-2) 0).cfg.WellFormed ∧ (withOperands 7 0 0).valB = 0 ∧
    (withOperands minW (-1) 0).valA = minVal 64 ∧ (withOperands minW (-1) 0).valB = -1 ∧
    (withOperands maxW (-1) 0).valB ≠ 0 ∧ (withOperands maxW (-1) 0).valA ≠ minVal 64 ∧
    0 < (withOperands 7 2 0).valB := by decide
theorem wit_DivisionIdentityBySign : (0 : Int) < 1 ∧ (-1 : Int) < 0 := by decide
theorem wit_InvUniqueInverse :
    (withOperands 5 0 0).cfg.WellFormed ∧ (withOperands 5 0 0).valB ≤ 0 ∧
    0 < (withOperands 4 8 0).valB ∧ Int.gcd (withOperands 4 8 0).valA (withOperands 4 8 0).valB ≠ 1 ∧
    0 < (withOperands 0 1 0).valB ∧ Int.gcd (withOperands 0 1 0).valA (withOperands 0 1 0).valB = 1 := by decide
theorem wit_InverseProperties :
    (withOperands 65537 3120 0).cfg.WellFormed ∧ 1 < (withOperands 65537 3120 0).valB ∧
    Int.gcd (withOperands 65537 3120 0).valA (withOperands 65537 3120 0).valB = 1 ∧
    Int.gcd (withOperands 4 8 0).valA (withOperands 4 8 0).valB ≠ 1 ∧ (withOperands 5 1 0).valB = 1 := by decide
theorem wit_EuclidLoopBounds :
    (0 : Int) ≤ 17 ∧ (17 : Int) < 3120 ∧ (euclidLoop 0 (Euclid.start 17 3120)).r ≠ 0 := by decide
theorem wit_PowmodExactPower :
    (withOperands 4 3 0).cfg.WellFormed ∧ (withOperands 4 3 0).valC ≤ 0 ∧ (withOperands 4 (-1) 5).valB < 0 ∧
    0 < (withOperands 5 0 1).valC ∧ 0 ≤ (withOperands 5 0 1).valB := by decide
theorem wit_PowerLoopLengthAndBounds : (0 : Int) < 1 ∧ (0 : Int) ≤ 17 ∧ 4 < bitlen (17 : Int).toNat := by decide
theorem wit_RsaRoundTrip :
    Nat.Prime 61 ∧ Nat.Prime 53 ∧ 61 ≠ 53 ∧ 17 * 2753 % ((61 - 1) * (53 - 1)) = 1 ∧ 72 < 61 * 53 ∧
    (withOperands 72 17 3233).cfg.WellFormed ∧ (withOperands 72 17 3233).valA = ((72 : Nat) : Int) ∧
    (withOperands 72 17 3233).valB = ((17 : Nat) : Int) ∧
    (withOperands 72 17 3233).valC = ((61 * 53 : Nat) : Int) ∧
    after 9 (withOperands 72 17 3233) = some ((withOperands 3000 2753 3233).valA, 88, 0x002) ∧
    (withOperands 3000 2753 3233).valB = ((2753 : Nat) : Int) ∧
    (withOperands 3000 2753 3233).valC = ((61 * 53 : Nat) : Int) :=
  ⟨by norm_num, by norm_num, by decide⟩
theorem wit_OutcomeDependsOnOperandsOnly :
    (withOperands 1 2 3).regs.opa = enc 64 1 ∧ (withOperands 1 2 3).regs.opb = enc 64 2 ∧
    (withOperands 1 2 3).regs.opc = enc 64 3 := ⟨rfl, rfl, rfl⟩
theorem wit_OnlyPowmodReadsOpc : Instr.inv ≠ .powmod := by decide
theorem wit_ModularResultsNonNegative :
    (withOperands 65537 3120 0).cfg.WellFormed ∧ (Instr.inv = .inv ∨ Instr.inv = .mod ∨ Instr.inv = .powmod) ∧
    after 8 (withOperands 65537 3120 0) = some (2753, 88, 0x002) := by decide
theorem wit_StepRunsTheDecodedCommand :
    (inProgress 1 2 3 1 [.core] []).regs.busy = true ∧ (inProgress 1 2 3 1 [.core] []).rst = false ∧
    decodeWord (inProgress 1 2 3 1 [.core] []).regs.cmd = .ok .add ∧
    (inProgress 1 2 3 1 [.core] []).sched = .core :: [] ∧ (inProgress 1 2 3 1 [] []).sched = [] ∧
    (withOperands 1 2 3).regs.busy = false ∧ ({ withOperands 1 2 3 with sched := [.core] } : State).sched = .core :: [] :=
  ⟨rfl, rfl, rfl, rfl, rfl, rfl, rfl⟩
theorem wit_InterruptEnableAndClear :
    (0x2 : Word).getLsbD 1 = true ∧ (withOperands 1 2 3).regs.busy = false ∧ (0x1 : Word).getLsbD 1 = false ∧
    (0x1 : Word).getLsbD 0 = true ∧ (0x4 : Word).getLsbD 1 = false ∧ (0x4 : Word).getLsbD 0 = false := by decide
/-- The highest aligned offset of the window; the same state serves the two statements about a defined access. -/
theorem wit_HostWriteIsOneStep :
    (inProgress 1 2 3 1 [.host] [.write 0xFFC 4 7]).rst = false ∧ 0xFFC < 0x1000 ∧ 0xFFC % 4 = 0 ∧
    (inProgress 1 2 3 1 [.host] [.write 0xFFC 4 7]).sched = .host :: [] ∧
    (inProgress 1 2 3 1 [.host] [.write 0xFFC 4 7]).host =
      .write ((inProgress 1 2 3 1 [.host] [.write 0xFFC 4 7]).cfg.base + 0xFFC) 4 7 :: [] := by decide
theorem wit_HostReadHasNoSideEffect :
    (inProgress 1 2 3 1 [.host] [.read 0x100 4]).rst = false ∧ 0x100 < 0x1000 ∧ 0x100 % 4 = 0 ∧
    (inProgress 1 2 3 1 [.host] [.read 0x100 4]).sched = .host :: [] ∧
    (inProgress 1 2 3 1 [.host] [.read 0x100 4]).host =
      .read ((inProgress 1 2 3 1 [.host] [.read 0x100 4]).cfg.base + 0x100) 4 :: [] := by decide
theorem wit_UndefinedAccessFaults :
    (inProgress 1 2 3 1 [.host] [.read 0xFFE 4]).rst = false ∧ InWindow Config.reference 0xFFE ∧
    (0xFFE - Config.reference.base) % 4 ≠ 0 ∧ InWindow Config.reference 0x000 ∧ 1 ≠ 4 ∧
    (inProgress 1 2 3 1 [.host] [.read 0xFFE 4]).sched = .host :: [] ∧
    (inProgress 1 2 3 1 [.host] [.read 0xFFE 4]).host = .read 0xFFE 4 :: [] ∧
    (inProgress 1 2 3 1 [.host] [.write 0x000 1 7]).host = .write 0x000 1 7 :: [] := by decide
theorem wit_NoResponseOutsideTheWindow :
    Config.reference.base + 0x1000 ≤ 0x1000 ∧ 0xFFC + 4 ≤ (Config.mk 64 0x1000).base ∧ 0 < 4 ∧
    (inProgress 1 2 3 1 [.host] [.read 0x1000 4]).sched = .host :: [] ∧
    (inProgress 1 2 3 1 [.host] [.read 0x1000 4]).host = .read 0x1000 4 :: [] ∧
    (inProgress 1 2 3 1 [.host] [.write 0x1000 4 7]).host = .write 0x1000 4 7 :: [] := by decide
theorem wit_LimbLayout : 1 < 64 ∧ 1 < 64 / 32 ∧ 31 < 32 ∧ 2 < 64 ∧ 64 / 32 ≤ 2 ∧ 63 < 64 := by decide
theorem wit_OperandWriteReplacesOneLimb :
    64 % 32 = 0 ∧ 64 ≤ 2048 ∧ 1 < 64 / 32 ∧ (WideReg.opc = .opa ∨ WideReg.opc = .opb ∨ WideReg.opc = .opc) ∧
    (withOperands 1 2 3).regs.busy = false ∧ busyRegs.busy = true := by decide
theorem wit_IgnoredWrites :
    0x010 < 0x1000 ∧ 0x010 % 4 = 0 ∧ 0x010 ≤ 0x010 ∧ 0x0FC < 0x100 ∧ 0x600 ≤ 0xFFC ∧ 0xFFC % 4 = 0 ∧
    0x400 ≤ 0x5FC ∧ 0x5FC < 0x600 ∧ 0x5FC % 4 = 0 := by decide
theorem wit_StartAcceptedOrDropped :
    (0x5 : Word).getLsbD 1 = false ∧ (0x5 : Word).getLsbD 0 = true ∧ (withOperands 1 2 3).regs.busy = false ∧
    busyRegs.busy = true := by decide
theorem wit_CtrlHoldsIen : (0x4 : Word).getLsbD 1 = false ∧ (0x4 : Word).getLsbD 0 = false := by decide
theorem wit_SoftResetClearsEverything : (0x7 : Word).getLsbD 1 = true := by decide
theorem wit_CmdStoredAndReadBack : (withOperands 1 2 3).regs.busy = false ∧ busyRegs.busy = true := by decide
theorem wit_StatusBits : 3 < 4 ∧ 11 ≤ 11 := by decide
theorem wit_InfoWordFields :
    Config.WellFormed { W := 64, base := 0 } ∧ Config.WellFormed { W := 2048, base := 0x1000 } := by decide
theorem wit_StatusWriteOneToClear :
    (0xA : Word).getLsbD 1 = true ∧ (0xA : Word).getLsbD 3 = true ∧ (0x0 : Word).getLsbD 1 = false ∧
    (0x0 : Word).getLsbD 3 = false := by decide
theorem wit_DroppedWritesAreExactlyThese :
    busyRegs.busy = true ∧ 0x304 < 0x1000 ∧ 0x304 % 4 = 0 ∧ 0x100 ≤ 0x304 ∧ 0x304 < 0x400 ∧ 0x304 % 0x100 / 4 < 64 / 32 ∧
    ¬ (0x308 % 0x100 / 4 < 64 / 32) ∧ 0x308 % 4 = 0 ∧ (0x1 : Word).getLsbD 1 = false ∧ (0x1 : Word).getLsbD 0 = true ∧
    (0x2 : Word).getLsbD 1 = true := by decide
theorem wit_WritesAreIdempotentButStart :
    0x004 % 4 = 0 ∧ (0x1 : Word).getLsbD 1 = false ∧ (0x1 : Word).getLsbD 0 = true ∧
    (withOperands 1 2 3).regs.busy = false ∧ (withOperands 1 2 3).regs.lost = false ∧
    ¬ (0x00C = 0x004 ∧ (0xA : Word).getLsbD 1 = false ∧ (0xA : Word).getLsbD 0 = true) := by decide

/-- A busy core whose host polls, then writes `STATUS`, on a schedule without a reset. -/
def pollingHost : State := inProgress 72 17 3233 9 [.host, .host] [.read 0x00C 4, .write 0x00C 4 0xA]

theorem pollingHost_resetFree : pollingHost.ResetFree where
  not_asserted := rfl
  turns := by intro t ht; fin_cases ht <;> exact trivial
  contract := by
    intro op ho
    fin_cases ho
    · show classify Config.reference 0x00C 4 ≠ .undefined
      decide
    · show classify Config.reference 0x00C 4 ≠ .undefined
      decide
  no_soft_reset := by
    intro op ho
    fin_cases ho
    · exact trivial
    · show classify Config.reference 0x00C 4 = .defined 0x004 → (0xA : Word).getLsbD 1 = false
      decide

theorem wit_CommandStableWhileBusy :
    pollingHost.ResetFree ∧ pollingHost.regs.busy = true ∧
    ∃ t, step pollingHost = .next t ∧ t.regs.busy = true := ⟨pollingHost_resetFree, rfl, _, rfl, rfl⟩
theorem wit_ResultsChangeOnlyAtCompletionOrReset :
    pollingHost.ResetFree ∧ ∃ t, step pollingHost = .next t := ⟨pollingHost_resetFree, _, rfl⟩
theorem wit_EveryStartedCommandCompletes : pollingHost.ResetFree ∧ pollingHost.regs.busy = true :=
  ⟨pollingHost_resetFree, rfl⟩
theorem wit_ResetValues : (0x004 : Nat) ≠ 0x000 ∧ (0x5FC : Nat) ≠ 0x000 := by decide
theorem wit_HardResetHoldsThenClears :
    (∃ t, step { inProgress 1 2 3 1 [.core] [] with rst := true } = .next t) ∧
    ({ inProgress 1 2 3 1 [.core] [] with rst := true } : State).sched.head? ≠ some .releaseReset ∧
    (∃ t, step { inProgress 1 2 3 1 [.releaseReset] [] with rst := true } = .next t) ∧
    ({ inProgress 1 2 3 1 [.releaseReset] [] with rst := true } : State).sched.head? = some .releaseReset :=
  ⟨⟨_, rfl⟩, by decide, ⟨_, rfl⟩, by decide⟩
theorem wit_StartAfterResetIsIllegal : (inProgress 72 17 3233 9 [] []).rst = false := by rfl
theorem wit_InvariantAtReset : Config.WellFormed { W := 2048, base := 0x1000 } := by decide

theorem pollingHost_inv : pollingHost.Inv :=
  ⟨by decide, fun _ => rfl, fun _ => rfl, by decide, by decide⟩

theorem wit_StepKeepsTheInvariant : pollingHost.Inv ∧ ∃ t, step pollingHost = .next t := ⟨pollingHost_inv, _, rfl⟩
theorem wit_SafeHostsNeverStop : pollingHost.Safe := ⟨pollingHost_inv, pollingHost_resetFree.contract⟩
theorem wit_LoadGivesTheRegisterItsValue :
    Config.reference.WellFormed ∧ (withOperands 1 2 3).rst = false ∧ (withOperands 1 2 3).regs.busy = false ∧
    (withOperands 1 2 3).sched = [] ∧ (WideReg.opb = .opa ∨ WideReg.opb = .opb ∨ WideReg.opb = .opc) ∧
    Fits 64 minW ∧
    ({ withOperands 1 2 3 with host := ld Config.reference .opb minW } : State).host = ld Config.reference .opb minW ++ [] :=
  ⟨by decide, rfl, rfl, rfl, by decide, by decide, (List.append_nil _).symm⟩
theorem wit_SmallValuesAreSignExtended :
    64 % 32 = 0 ∧ 64 ≤ 64 ∧ (-2 : Int) ^ 31 ≤ -1 ∧ (-1 : Int) ≤ 2 ^ 31 - 1 ∧ 1 ≤ 1 ∧ 1 < 64 / 32 := by decide
theorem wit_RunMacroIsTheCompletion :
    (withOperands 72 17 3233).rst = false ∧ (withOperands 72 17 3233).regs.busy = false ∧
    (withOperands 72 17 3233).sched = [] ∧
    ({ withOperands 72 17 3233 with host := run Config.reference 9 } : State).host = run Config.reference 9 ++ [] :=
  ⟨rfl, rfl, rfl, rfl⟩

theorem wit_GetGivesTheRegistersValue :
    Config.reference.WellFormed ∧ (withOperands 72 17 3233).rst = false ∧ (withOperands 72 17 3233).regs.busy = false ∧
    (withOperands 72 17 3233).sched = [] ∧
    ({ withOperands 72 17 3233 with host := Machine.get Config.reference .res1 } : State).host =
      Machine.get Config.reference .res1 ++ [] :=
  ⟨by decide, rfl, rfl, rfl, (List.append_nil _).symm⟩

end Sys2Proof.Tests
end

section
/-! PROOFS. Numbers (rules R13, R14): the value a register content denotes by its sign bit, the floor quotient as the
floor of the rational quotient, the absolute value as the library's. -/

namespace Sys2Proof.Machine

/-- Two's complement by the sign bit: the weight of bit `W - 1` is negative (rule R13). -/
theorem val_eq_of_sign_bit {W : Nat} (x : BitVec W) :
    val x = if x.getLsbD (W - 1) then (x.toNat : Int) - 2 ^ W else (x.toNat : Int) := by
  rw [val, BitVec.toInt_eq_msb_cond, BitVec.msb_eq_getLsbD_last]
  norm_cast

/-- `enc(v)` is the residue of `v` modulo `2^W`, for every integer `v` (rule R13). -/
theorem toNat_enc (W : Nat) (v : Int) : ((enc W v).toNat : Int) = v % 2 ^ W := by
  have hpos : (0 : Int) < 2 ^ W := by positivity
  rw [enc, BitVec.toNat_ofInt]
  push_cast
  exact Int.toNat_of_nonneg (Int.emod_nonneg v hpos.ne')

/-- The floor quotient is the floor of the rational quotient, at every sign of the divisor (rule R14). -/
theorem fdiv_eq_floor (a b : Int) : fdiv a b = ⌊(a : ℚ) / (b : ℚ)⌋ := by
  obtain ⟨n, rfl | rfl⟩ := b.eq_nat_or_neg
  · rw [fdiv, Int.fdiv_eq_ediv_of_nonneg a n.cast_nonneg, Int.cast_natCast, Rat.floor_intCast_div_natCast]
  · have hq : (a : ℚ) / ((-n : Int) : ℚ) = ((-a : Int) : ℚ) / (n : ℚ) := by push_cast; rw [div_neg, neg_div]
    rw [fdiv, ← Int.neg_fdiv_neg, neg_neg, Int.fdiv_eq_ediv_of_nonneg (-a) n.cast_nonneg, hq,
      Rat.floor_intCast_div_natCast]

/-- `absVal` is the library's absolute value (rule R14). -/
theorem absVal_eq_abs (b : Int) : absVal b = |b| := by
  unfold absVal
  split
  case isTrue hneg => exact (abs_of_neg hneg).symm
  case isFalse hnonneg => exact (abs_of_nonneg (not_lt.mp hnonneg)).symm

/-- Settles O1: `val` by the sign bit, `enc` as the residue, and `val_enc` for the round trip on the range. -/
theorem twosComplementValue : Obligations.TwosComplementValue :=
  fun W hW => ⟨val_eq_of_sign_bit, fun v hv => ⟨toNat_enc W v, val_enc hW hv⟩⟩

/-- Settles O2: `fdiv` is the floor of the rational quotient, so its bounds are the library's for the floor. -/
theorem floorQuotientAndModulo : Obligations.FloorQuotientAndModulo := by
  refine ⟨fun a b _ => ?_, fun a m hm => ?_, absVal_eq_abs⟩
  · rw [fdiv_eq_floor]
    exact ⟨Int.floor_le _, fun q hq => Int.le_floor.mpr hq⟩
  · exact ⟨rfl, nnmod_nonneg a hm, nnmod_lt a hm⟩

end Sys2Proof.Machine
end

section
/-! PROOFS. A command's outcome is a function of the command and its operands (rule R18). -/

namespace Sys2Proof.Machine

/-- Settles O23: the one outcome is `commandOf` on the values of the operands, which names no other part of the state. -/
theorem outcomeDependsOnOperandsOnly : Obligations.OutcomeDependsOnOperandsOnly := by
  intro i c a b d
  refine ⟨commandOf c.W (val a) (val b) (val d) i, ?_⟩
  rintro r rst host sched rdata got free rfl rfl rfl
  exact exec_eq_complete i _

end Sys2Proof.Machine
end

section
/-! PROOFS. What a write to the window does to the registers (10_state.md): where the limbs stand, which offsets ignore a
write, what a write to `CTRL`, `CMD` and `STATUS` does, and which writes a busy core drops. -/

namespace Sys2Proof.Machine

/-! ### The windows of the wide registers (rule R31) -/

/-- The five windows lie between `0x100` and `0x600`. -/
theorem start_bounds (x : WideReg) : 0x100 ≤ x.start ∧ x.start + 0x100 ≤ 0x600 := by
  cases x <;> decide

/-- The index of a limb is read from the low byte of its offset. -/
theorem window_index {x : WideReg} {off : Nat} (h : x.start ≤ off ∧ off < x.start + 0x100) :
    (off - x.start) / 4 = off % 0x100 / 4 := by
  cases x <;> simp only [WideReg.start] at h ⊢ <;> omega

/-- The operand windows are those below `0x400`. -/
theorem isOperand_iff_of_window {x : WideReg} {off : Nat} (h : x.start ≤ off ∧ off < x.start + 0x100) :
    x.isOperand = true ↔ off < 0x400 := by
  cases x <;> simp only [WideReg.start, WideReg.isOperand] at h ⊢ <;> simp <;> omega

theorem wide_setOperand_same {W : Nat} (r : Regs W) {x : WideReg} (hx : x.isOperand = true) (y : BitVec W) :
    (r.setOperand x y).wide x = y := by
  cases x with
  | opa | opb | opc => rfl
  | res0 | res1 => cases hx

theorem wide_reset (W : Nat) (x : WideReg) : (Regs.reset W).wide x = 0 := by
  cases x <;> rfl

section
variable {W : Nat} (r : Regs W)

theorem readOffset_limb {x : WideReg} {k : Nat} (h : k < 64) (hk : k < W / 32) :
    readOffset r (x.start + 4 * k) = limb (r.wide x) k := by
  rw [readOffset, decodeOffset_limb W x h, limbTarget, if_pos hk, readTarget]

theorem writeOffset_limb {x : WideReg} {k : Nat} (h : k < 64) (hk : k < W / 32) (v : Word) :
    writeOffset r (x.start + 4 * k) v = writeLimb r x k v := by
  rw [writeOffset, decodeOffset_limb W x h, limbTarget, if_pos hk, writeTarget]

theorem decodeOffset_unusedLimb {x : WideReg} {k : Nat} (h : k < 64) (hk : W / 32 ≤ k) :
    decodeOffset W (x.start + 4 * k) = .reserved := by
  rw [decodeOffset_limb W x h, limbTarget, if_neg (Nat.not_lt.mpr hk)]

theorem readOffset_reserved {off : Nat} (h : decodeOffset W off = .reserved) : readOffset r off = 0 := by
  rw [readOffset, h, readTarget]

theorem writeOffset_reserved {off : Nat} (h : decodeOffset W off = .reserved) (v : Word) : writeOffset r off v = r := by
  rw [writeOffset, h, writeTarget]

/-- The two reserved ranges of the register map (rules R30, R32). -/
theorem decodeOffset_reserved (W : Nat) {off : Nat} (h : (0x010 ≤ off ∧ off < 0x100) ∨ 0x600 ≤ off) :
    decodeOffset W off = .reserved := by
  have hform := decodeOffset_form W off
  generalize decodeOffset W off = tgt at hform
  cases hform with
  | info | ctrl | cmd | status => omega
  | limb x => have := start_bounds x; omega
  | unusedLimb | reserved => rfl

/-- No write to the window of a result register, used limb or not, has an effect (rules R31, R51). -/
theorem writeOffset_result {x : WideReg} (hx : x.isOperand = false) {off : Nat}
    (h : x.start ≤ off ∧ off < x.start + 0x100) (v : Word) : writeOffset r off v = r := by
  rw [writeOffset, decodeOffset_window W x h, limbTarget]
  split
  · exact writeLimb_result r v x _ hx
  · rfl

/-! ### What a busy core drops (rule R50) -/

theorem writeOffset_dropped {off : Nat} (v : Word) (hoff : off % 4 = 0) (hb : r.busy = true)
    (h : off = 0x008 ∨ ((0x100 ≤ off ∧ off < 0x400) ∧ off % 0x100 / 4 < W / 32)) :
    writeOffset r off v = dropWrite r := by
  have hform := decodeOffset_form W off
  rw [writeOffset]
  generalize decodeOffset W off = tgt at hform
  cases hform with
  | info | ctrl | status | reserved => omega
  | cmd => exact writeCmd_busy r v hb
  | limb x k hk hwin => exact writeLimb_busy r v x k ((isOperand_iff_of_window hwin).mpr (by omega)) hb
  | unusedLimb x hwin hk => have := window_index hwin; have := start_bounds x; omega

/-- A write that a busy core would not drop does one and the same thing to every register record, busy or idle. -/
theorem writeOffset_of_not_dropped {off : Nat} {v : Word}
    (h : ¬ (off = 0x008 ∨ ((0x100 ≤ off ∧ off < 0x400) ∧ off % 0x100 / 4 < W / 32) ∨
      (off = 0x004 ∧ v.getLsbD 1 = false ∧ v.getLsbD 0 = true))) :
    (∀ r : Regs W, writeOffset r off v = r) ∨
    (off = 0x004 ∧ v.getLsbD 1 = true ∧ ∀ r : Regs W, writeOffset r off v = Regs.reset W) ∨
    (∀ r : Regs W, writeOffset r off v = { r with ien := v.getLsbD 2 }) ∨
    (∀ r : Regs W, writeOffset r off v = writeStatus r v) := by
  have hform := decodeOffset_form W off
  unfold writeOffset
  generalize decodeOffset W off = tgt at hform
  cases hform with
  | info | reserved | unusedLimb => exact .inl fun _ => rfl
  | ctrl hoff =>
    cases h1 : v.getLsbD 1
    · have h0 : v.getLsbD 0 = false := by
        by_contra h0
        exact h (.inr (.inr ⟨hoff, h1, by simpa using h0⟩))
      exact .inr (.inr (.inl fun r => writeCtrl_ien r v h1 h0))
    · exact .inr (.inl ⟨hoff, rfl, fun r => writeCtrl_reset r v h1⟩)
  | cmd hoff => exact absurd (.inl hoff) h
  | status => exact .inr (.inr (.inr fun _ => rfl))
  | limb x k hk hwin hk' =>
    have hx : x.isOperand = false := by
      rw [← Bool.not_eq_true, isOperand_iff_of_window hwin]
      have := window_index hwin
      have := start_bounds x
      omega
    exact .inl fun r => writeLimb_result r v x k hx

end

/-! ### The statements about the window -/

/-- Settles O36: a used limb is a slice of its register, an unused one a reserved offset. -/
theorem limbLayout : Obligations.LimbLayout := by
  intro W r x k v h
  refine ⟨fun hk i hi => ?_, fun hk => ?_, rfl, rfl, rfl, rfl, rfl⟩
  · rw [readOffset_limb r h hk, getLsbD_limb, decide_eq_true hi, Bool.true_and]
  · have hd := decodeOffset_unusedLimb (x := x) h hk
    exact ⟨readOffset_reserved r hd, writeOffset_reserved r hd v⟩

/-- Settles O37: the write is `writeLimb`, and `setLimb` replaces one limb. -/
theorem operandWriteReplacesOneLimb : Obligations.OperandWriteReplacesOneLimb := by
  intro W r x k v hW hmax hk hx
  have hop : x.isOperand = true := by rcases hx with rfl | rfl | rfl <;> rfl
  rw [writeOffset_limb r (by omega) hk]
  refine ⟨fun hb => ⟨setLimb (r.wide x) k v, writeLimb_idle r v x k hop hb, wide_setOperand_same r hop _, ?_, ?_⟩,
    writeLimb_busy r v x k hop⟩
  · exact limb_setLimb_same _ v (by omega)
  · exact fun j _ hj => limb_setLimb_ne _ v hj

/-- Settles O38: the reserved ranges, `INFO`, and the windows of the two result registers. -/
theorem ignoredWrites : Obligations.IgnoredWrites := by
  intro W r off v _ _
  refine ⟨fun h => ?_, ?_⟩
  · have hd := decodeOffset_reserved W h
    exact ⟨readOffset_reserved r hd, writeOffset_reserved r hd v⟩
  · rintro (rfl | ⟨hlo, hhi⟩)
    · rfl
    · rcases Nat.lt_or_ge off 0x500 with h | h
      · exact writeOffset_result r (x := .res0) rfl ⟨hlo, h⟩ v
      · exact writeOffset_result r (x := .res1) rfl ⟨h, hhi⟩ v

/-- Settles O46: `writeOffset_dropped` for the writes that are dropped, `writeOffset_of_not_dropped` for the others. -/
theorem droppedWritesAreExactlyThese : Obligations.DroppedWritesAreExactlyThese := by
  intro W r off v _ hoff hb
  refine ⟨writeOffset_dropped r v hoff hb, ?_, fun h => ?_⟩
  · rintro ⟨rfl, h1, h0⟩
    exact writeCtrl_start_busy r v h1 h0 hb
  · rcases writeOffset_of_not_dropped h with hsame | ⟨rfl, h1, hreset⟩ | hien | hstatus
    · rw [hsame r, hsame { r with busy := false }]
      exact ⟨id, fun _ => rfl⟩
    · rw [hreset r]
      exact ⟨nofun, fun hn => absurd ⟨rfl, h1⟩ hn⟩
    · rw [hien r, hien { r with busy := false }]
      exact ⟨id, fun _ => rfl⟩
    · rw [hstatus r, hstatus { r with busy := false }]
      exact ⟨fun hl => (Bool.and_eq_true_iff.mp hl).1, fun _ => rfl⟩

/-- Settles O39: a START at an idle core is `acceptStart`, at a busy one `dropWrite`. -/
theorem startAcceptedOrDropped : Obligations.StartAcceptedOrDropped :=
  fun _ r v h1 h0 => ⟨writeCtrl_start_idle r v h1 h0, writeCtrl_start_busy r v h1 h0⟩

/-- Bit 2 of `CTRL` is `IEN` and every other bit is zero (rule R34). -/
theorem getLsbD_ctrlWord {W : Nat} (r : Regs W) (i : Nat) :
    (ctrlWord r).getLsbD i = (r.ien && decide (i = 2)) := by
  unfold ctrlWord
  rcases i with _ | _ | _ | i <;> simp only [BitVec.getLsbD_append] <;> simp

/-- A write to `CTRL` that does not reset sets `IEN`, whether it starts a command or not (rule R37). -/
theorem writeCtrl_ien_eq {W : Nat} (r : Regs W) {v : Word} (h1 : v.getLsbD 1 = false) :
    (writeCtrl r v).ien = v.getLsbD 2 := by
  cases h0 : v.getLsbD 0
  · rw [writeCtrl_ien r v h1 h0]
  · cases hb : r.busy
    · rw [writeCtrl_start_idle r v h1 h0 hb]
    · rw [writeCtrl_start_busy r v h1 h0 hb]

/-- Settles O40: by the bits of `CTRL` and the cases of a write to it. -/
theorem ctrlHoldsIen : Obligations.CtrlHoldsIen :=
  fun _ r => ⟨getLsbD_ctrlWord r, fun v h1 => ⟨writeCtrl_ien_eq r h1, writeCtrl_ien r v h1⟩⟩

/-- Settles O41: the soft reset gives the record of `Regs.reset`. -/
theorem softResetClearsEverything : Obligations.SoftResetClearsEverything :=
  fun _ r v h1 => writeCtrl_reset r v h1

/-- Settles O42: by the two cases of a write to `CMD`. -/
theorem cmdStoredAndReadBack : Obligations.CmdStoredAndReadBack := by
  intro W r v
  refine ⟨fun hb => ?_, writeCmd_busy r v⟩
  rw [writeOffset_cmd, writeCmd_idle r v hb]
  exact ⟨rfl, rfl⟩

/-- Bits 7 to 4 of `STATUS` are `ERRCODE` (rule R40). -/
theorem getLsbD_statusWord_errcode {W : Nat} (r : Regs W) {i : Nat} (hi : i < 4) :
    (statusWord r).getLsbD (4 + i) = r.errcode.getLsbD i := by
  have hpos : 4 + i - 1 - 1 - 1 - 1 = i := by omega
  simp (disch := omega) only [statusWord, BitVec.getLsbD_append, if_neg, if_pos, hpos]

/-- `STATUS` holds nothing above bit 10 (rule R40). -/
theorem getLsbD_statusWord_of_ge {W : Nat} (r : Regs W) {i : Nat} (hi : 11 ≤ i) :
    (statusWord r).getLsbD i = false := by
  simp (disch := omega) only [statusWord, BitVec.getLsbD_append, if_neg, BitVec.getLsbD_zero]

/-- Settles O43: the one-bit fields at their literal positions, `ERRCODE` and the bits above by their lemmas. -/
theorem statusBits : Obligations.StatusBits := by
  intro W r
  rw [readOffset_status]
  refine ⟨?_, ?_, ?_, ?_, fun i => getLsbD_statusWord_errcode r, ?_, ?_, ?_, fun i => getLsbD_statusWord_of_ge r⟩ <;>
    simp only [statusWord, BitVec.getLsbD_append] <;> simp [Regs.err]

/-- The number in `INFO`: `REV = 1` above the sixteen bits of `LIMBS` (rule R33). -/
theorem toNat_infoWord (W : Nat) : (infoWord W).toNat = 2 ^ 16 + W / 32 % 2 ^ 16 := by
  have hrev : 0#8 ++ 0x01#8 = 1#16 := rfl
  have hlimbs : W / 32 % 2 ^ 16 < 2 ^ 16 := Nat.mod_lt _ (by decide)
  rw [infoWord, hrev, BitVec.toNat_append, BitVec.toNat_ofNat, BitVec.toNat_ofNat,
    ← Nat.shiftLeft_add_eq_or_of_lt hlimbs]
  rfl

/-- Settles O44: the fields are digits of the number in `INFO`, which no register has a part in. -/
theorem infoWordFields : Obligations.InfoWordFields := by
  rintro c r v ⟨-, -, hmax, -⟩
  have h : (readOffset r 0x000).toNat = 2 ^ 16 + c.W / 32 % 2 ^ 16 := toNat_infoWord c.W
  simp only [BitVec.extractLsb'_toNat, h, Nat.shiftRight_eq_div_pow]
  refine ⟨?_, ?_, ?_, rfl, fun _ => rfl⟩ <;> omega

/-- Settles O45: `writeStatus` masks each of the two bits with the negation of its write bit. -/
theorem statusWriteOneToClear : Obligations.StatusWriteOneToClear := by
  intro W r v
  refine ⟨_, _, writeOffset_status r v, ?_, ?_, ?_, ?_⟩ <;> intro h <;> rw [h] <;> simp

/-- After reset every offset but `INFO` reads zero, by the register map (rules R30, R53). -/
theorem readOffset_resetRegs (W : Nat) {off : Nat} (h : off ≠ 0x000) : readOffset (Regs.reset W) off = 0 := by
  have hform := decodeOffset_form W off
  unfold readOffset
  generalize decodeOffset W off = tgt at hform
  cases hform with
  | info hoff => exact absurd hoff h
  | ctrl => simp [readTarget, ctrlWord]
  | status => simp [readTarget, statusWord, Regs.err]
  | cmd | unusedLimb | reserved => rfl
  | limb x k => rw [readTarget, wide_reset]; exact BitVec.extractLsb'_zero

/-- Settles O50: the record of `Regs.reset`, and what it reads as. -/
theorem resetValues : Obligations.ResetValues :=
  fun c => ⟨rfl, rfl, fun _ => readOffset_resetRegs c.W, rfl⟩

end Sys2Proof.Machine
end

section
/-! PROOFS. What a completion and a step do to the architectural state (10_state.md, 60_exceptions.md): which command
writes what, what a step without a reset leaves alone, and the invariant. -/

namespace Sys2Proof.Machine

/-! ### The completion: which command writes what (rules R25, R46, R110) -/

section
variable {W : Nat} (r : Regs W)

@[simp] theorem finish_busy (out : CommandResult W) : (finish r out).busy = false := by
  cases out <;> rfl

theorem code_le_five (c : ErrorCode) : c.code.toNat ≤ 5 := by
  cases c <;> decide

theorem finish_errcode_le_five (out : CommandResult W) : (finish r out).errcode.toNat ≤ 5 := by
  cases out with
  | ok ws => exact Nat.zero_le 5
  | error c => exact code_le_five c

variable {i : Instr} {out : CommandResult W}

theorem finish_res1_of_ne_divmod (h : ResultForm W i out) (hi : i ≠ .divmod) : (finish r out).res1 = r.res1 := by
  cases h with
  | two => exact absurd rfl hi
  | overflow | divByZero | domain | notInvertible | one | flags => rfl

theorem finish_res0_of_cmp (h : ResultForm W .cmp out) : (finish r out).res0 = r.res0 := by
  cases h with
  | one x hi => exact absurd rfl hi.1
  | overflow | divByZero | domain | flags => rfl

theorem finish_flags_of_ne_cmp (h : ResultForm W i out) (hi : i ≠ .cmp) :
    (finish r out).lt = r.lt ∧ (finish r out).eq = r.eq ∧ (finish r out).gt = r.gt := by
  cases h with
  | flags => exact absurd rfl hi
  | overflow | divByZero | domain | notInvertible | one | two => exact ⟨rfl, rfl, rfl⟩

theorem finish_flags_of_cmp (h : ResultForm W .cmp out) :
    (finish r out).lt.toNat + (finish r out).eq.toNat + (finish r out).gt.toNat = 1 := by
  cases h with
  | flags a b => exact compare_exactly_one a b
  | one x hi => exact absurd rfl hi.1
  | overflow hi | divByZero hi | domain hi => simp at hi

end

/-- Settles O29: by the form of the command's result. -/
theorem whichCommandWritesWhat : Obligations.WhichCommandWritesWhat := by
  intro i s
  obtain ⟨out, hform, hexec⟩ := exec_cases i s
  refine ⟨finish s.regs out, hexec, finish_res1_of_ne_divmod _ hform, ?_, finish_flags_of_ne_cmp _ hform, ?_⟩
  · rintro rfl
    exact finish_res0_of_cmp _ hform
  · rintro rfl
    exact finish_flags_of_cmp _ hform

/-! ### The invariant (rules R42, R45, R46, R110) -/

section
variable {W : Nat} {r : Regs W}

/-- At an idle core only the range of the code and the flags are in question. -/
theorem consistent_of_idle (hb : r.busy = false) (hcode : r.errcode.toNat ≤ 5)
    (hflags : r.lt.toNat + r.eq.toNat + r.gt.toNat ≤ 1) : r.Consistent where
  busy_not_done h := by rw [hb] at h; cases h
  busy_no_error h := by rw [hb] at h; cases h
  code_le_five := hcode
  flags_exclusive := hflags

theorem reset_consistent (W : Nat) : (Regs.reset W).Consistent :=
  consistent_of_idle rfl (Nat.zero_le 5) (Nat.zero_le 1)

/-- A completion leaves the flags as they were or sets exactly one of them. -/
theorem finish_flags_exclusive {out : CommandResult W}
    (hout : out = .error .illegalCommand ∨ ∃ i, ResultForm W i out) (h : r.Consistent) :
    (finish r out).lt.toNat + (finish r out).eq.toNat + (finish r out).gt.toNat ≤ 1 := by
  rcases hout with rfl | ⟨i, hform⟩
  · exact h.flags_exclusive
  · by_cases hi : i = .cmp
    · subst hi
      exact (finish_flags_of_cmp r hform).le
    · obtain ⟨hlt, heq, hgt⟩ := finish_flags_of_ne_cmp r hform hi
      rw [hlt, heq, hgt]
      exact h.flags_exclusive

theorem finish_outcomeOf_consistent {s : State} (h : s.regs.Consistent) : (finish s.regs (outcomeOf s)).Consistent :=
  consistent_of_idle (finish_busy _ _) (finish_errcode_le_five _ _) (finish_flags_exclusive (outcomeOf_form s) h)

theorem setOperand_consistent (h : r.Consistent) (x : WideReg) (y : BitVec W) : (r.setOperand x y).Consistent := by
  obtain ⟨hdone, herr, hcode, hflags⟩ := h
  cases x <;> exact ⟨hdone, herr, hcode, hflags⟩

/-- Every write to the window keeps the registers consistent: an accepted START clears `DONE` and `ERRCODE`, no other write
sets `BUSY` or `DONE`, and none sets a flag or a code. -/
theorem writeOffset_consistent (h : r.Consistent) (off : Nat) (v : Word) : (writeOffset r off v).Consistent := by
  have heffect := writeOffset_effect r v off
  generalize writeOffset r off v = r' at heffect
  obtain ⟨hdone, herr, hcode, hflags⟩ := id h
  cases heffect with
  | ignored => exact h
  | softReset => exact reset_consistent W
  | started => exact ⟨fun _ => rfl, fun _ => rfl, Nat.zero_le 5, hflags⟩
  | cleared d l hd =>
    refine ⟨fun hb => ?_, herr, hcode, hflags⟩
    by_contra hc
    have := hd (by simpa using hc)
    rw [hdone hb] at this
    cases this
  | operand _ x y => exact setOperand_consistent h x y
  | startDropped | enabled | dropped | command => exact ⟨hdone, herr, hcode, hflags⟩

end

theorem step_keeps_inv {s t : State} (h : step s = .next t) (hinv : s.Inv) : t.Inv := by
  obtain ⟨hcfg, hregs⟩ := id hinv
  rcases step_cases h with ⟨-, -, -, ht⟩ | ⟨-, -, ht⟩ | ⟨-, hhost⟩ | ⟨-, ht⟩ | ⟨-, ht⟩
  · exact ht ▸ ⟨hcfg, finish_outcomeOf_consistent hregs⟩
  · exact ht ▸ hinv
  · obtain ⟨r, ht, hr, -, -⟩ := hostTurn_cases hhost
    rw [ht]
    rcases hr with rfl | ⟨-, _, _, off, v, _, -, -, -, rfl⟩
    · exact hinv
    · exact ⟨hcfg, writeOffset_consistent hregs off v⟩
  · exact ht ▸ hinv
  · rw [ht]
    split
    · exact ⟨hcfg, reset_consistent s.cfg.W⟩
    · exact hinv

/-- Settles O54: `step_host_cfg` for the configuration, `step_keeps_inv` for the invariant. -/
theorem stepKeepsTheInvariant : Obligations.StepKeepsTheInvariant :=
  fun _ _ h => ⟨(step_host_cfg h).2, step_keeps_inv h⟩

/-- Settles O53: the record of `Regs.reset` is consistent, and the reference configuration legal. -/
theorem invariantAtReset : Obligations.InvariantAtReset :=
  ⟨⟨by decide, reset_consistent _⟩, fun _ hc => ⟨hc, reset_consistent _⟩⟩

/-! ### Steps without a reset (rules R28, R50, R51) -/

/-- All that a step without a reset can do to the registers: a completion, nothing, or one write that is no soft reset. -/
theorem step_cases_of_resetFree {s t : State} (hfree : s.ResetFree) (h : step s = .next t) :
    ∃ r : Regs s.cfg.W,
      t = { s with regs := r, host := t.host, sched := t.sched, rdata := t.rdata, got := t.got } ∧
      ((s.regs.busy = true ∧ r = finish s.regs (outcomeOf s)) ∨ r = s.regs ∨
        ∃ off v, ¬ (off = 0x004 ∧ v.getLsbD 1 = true) ∧ r = writeOffset s.regs off v) := by
  have hturn := nextTurn_of_resetFree hfree
  rcases step_cases h with ⟨-, hb, -, ht⟩ | ⟨-, -, ht⟩ | ⟨-, hhost⟩ | ⟨hn, -⟩ | ⟨hn, -⟩
  · exact ⟨_, by rw [ht], .inl ⟨hb, rfl⟩⟩
  · exact ⟨s.regs, by rw [ht], .inr (.inl rfl)⟩
  · obtain ⟨r, ht, hr, hcounter, -⟩ := hostTurn_cases hhost
    rw [hcounter hfree.not_asserted] at ht
    have hsched : t.sched = s.sched.tail := by rw [ht]
    refine ⟨r, by rw [hsched]; exact ht, .inr ?_⟩
    rcases hr with hr | ⟨-, _, _, off, v, _, hop, -, hdef, hr⟩
    · exact .inl hr
    · exact .inr ⟨off, v, no_soft_reset_at_head hfree hop hdef, hr⟩
  · simp [hn] at hturn
  · simp [hn] at hturn

section
variable {W : Nat} (r : Regs W) {off : Nat} {v : Word}

/-- A write that is no soft reset leaves the result registers alone (rule R51). -/
theorem writeOffset_results (hv : ¬ (off = 0x004 ∧ v.getLsbD 1 = true)) :
    (writeOffset r off v).res0 = r.res0 ∧ (writeOffset r off v).res1 = r.res1 := by
  have heffect := writeOffset_effect r v off
  generalize writeOffset r off v = r' at heffect
  cases heffect with
  | softReset h => exact absurd h hv
  | operand _ x y => cases x <;> exact ⟨rfl, rfl⟩
  | ignored | started | startDropped | enabled | dropped | command | cleared => exact ⟨rfl, rfl⟩

/-- A write to a busy core that is no soft reset changes at most `IEN`, `DONE` and `LOST` (rules R37, R47, R50). -/
theorem writeOffset_of_busy (hb : r.busy = true) (hv : ¬ (off = 0x004 ∧ v.getLsbD 1 = true)) :
    ∃ ien done lost : Bool, writeOffset r off v = { r with ien := ien, done := done, lost := lost } := by
  have heffect := writeOffset_effect r v off
  generalize writeOffset r off v = r' at heffect
  cases heffect with
  | softReset h => exact absurd h hv
  | started h => simp [hb] at h
  | command h | operand h => simp [hb] at h
  | ignored | startDropped | enabled | dropped | cleared => exact ⟨_, _, _, rfl⟩

end

/-- Settles O48: a completion would leave the core idle, and a write to a busy core reaches none of these registers. -/
theorem commandStableWhileBusy : Obligations.CommandStableWhileBusy := by
  intro s t hfree hb h hbt
  obtain ⟨r, ht, hr⟩ := step_cases_of_resetFree hfree h
  refine ⟨r, ht, ?_⟩
  rcases hr with ⟨-, rfl⟩ | rfl | ⟨off, v, hv, rfl⟩
  · rw [ht] at hbt
    simp at hbt
  · exact ⟨rfl, rfl, rfl, rfl, rfl, rfl, rfl, rfl, rfl, rfl⟩
  · obtain ⟨ien, done, lost, hw⟩ := writeOffset_of_busy s.regs hb hv
    rw [hw]
    exact ⟨rfl, rfl, rfl, rfl, rfl, rfl, rfl, rfl, rfl, rfl⟩

/-- Settles O49: a step without a reset is a completion or keeps the results. -/
theorem resultsChangeOnlyAtCompletionOrReset : Obligations.ResultsChangeOnlyAtCompletionOrReset := by
  intro s t hfree h
  obtain ⟨r, ht, hr⟩ := step_cases_of_resetFree hfree h
  rcases hr with ⟨hb, rfl⟩ | rfl | ⟨off, v, hv, rfl⟩
  · exact .inl ⟨hb, by rw [ht]; exact finish_busy _ _⟩
  · exact .inr ⟨s.regs, ht, rfl, rfl⟩
  · exact .inr ⟨_, ht, writeOffset_results s.regs hv⟩

/-! ### The placing of a command word (log 9) -/

/-- A word is its own table word. -/
theorem tableWord_toNat (w : Word) : tableWord 32 w.toNat = w := by
  rw [tableWord, Nat.mod_eq_of_lt w.isLt, BitVec.ofNat_toNat, BitVec.setWidth_eq]

theorem decodeWord_encode (i : Instr) : decodeWord (encode i) = .ok i := by
  cases i <;> rfl

/-- The core's turn at a busy core that is not under reset, with a legal word in `CMD`, is that command (rule R118). -/
theorem coreTurn_of_decodeWord {s : State} {i : Instr} (hb : s.regs.busy = true) (hrst : s.rst = false)
    (hcmd : decodeWord s.regs.cmd = .ok i) : coreTurn s = exec i s := by
  simp [coreTurn, completion, hb, hrst, hcmd]

/-- A step from a state with a command word placed is the core's turn with that command in progress (rule R35). -/
theorem step_loadCommand (s : State) (w : Word) :
    step (loadCommand s w) =
      coreTurn { s with regs := { s.regs with cmd := w, busy := true, done := false, errcode := 0 }, rst := false } := rfl

/-- Settles O27: the core's turn stands at the head of the schedule, and the word placed decodes to the command. -/
theorem fetchWordIsRunNext : Obligations.FetchWordIsRunNext := by
  intro s i
  rw [State.withFetchWord, tableWord_toNat, step_loadCommand]
  exact coreTurn_of_decodeWord rfl rfl (decodeWord_encode i)

end Sys2Proof.Machine
end

section
/-! PROOFS. Byte lanes and limbs (rules R31, R61). -/

namespace Sys2Proof

/-- Bit `i` of byte lane `j` is bit `8j + i` of the word (rule R61). -/
theorem getLsbD_byteLane (w : Word) (j i : Nat) :
    (byteLane w j).getLsbD i = (decide (i < 8) && w.getLsbD (8 * j + i)) := by
  rw [byteLane, BitVec.getLsbD_extractLsb']

/-- The four lanes of a word, put together in order, are the word: neighbouring slices join (rule R61). -/
theorem wordOfLanes_byteLane (w : Word) :
    wordOfLanes (byteLane w 0) (byteLane w 1) (byteLane w 2) (byteLane w 3) = w := by
  simp only [wordOfLanes, byteLane, BitVec.extractLsb'_append_extractLsb'_eq_extractLsb']
  exact BitVec.extractLsb'_eq_self

end Sys2Proof

namespace Sys2Proof.Machine

/-- Settles O4: by the bits of a lane and of a limb, and `wordOfLanes_byteLane` for the way back. -/
theorem littleEndianLanesAndLimbs : Obligations.LittleEndianLanesAndLimbs := by
  refine ⟨fun w j i _ hi => ?_, fun w => ⟨rfl, wordOfLanes_byteLane w⟩, fun W x k i hi => ?_⟩
  · rw [getLsbD_byteLane, decide_eq_true hi, Bool.true_and]
  · rw [getLsbD_limb, decide_eq_true hi, Bool.true_and]

end Sys2Proof.Machine
end

section
/-! PROOFS. A host access as a step (20_memory.md): what the bus answers by where the access meets the window, and that a
host within the contract never stops the machine. -/

namespace Sys2Proof.Machine

/-! ### The bus, by the class of the access (rules R57 to R60) -/

section
variable {s : State} {addr size : Nat}

theorem busRead_outside (h : classify s.cfg addr size = .outside) :
    busRead s addr size = .next { s with rdata := none :: s.rdata } := by
  rw [busRead, h]

theorem busRead_undefined (h : classify s.cfg addr size = .undefined) :
    busRead s addr size = .fault (.undefinedAccess addr size) := by
  rw [busRead, h]

theorem busRead_defined {off : Nat} (hrst : s.rst = false) (h : classify s.cfg addr size = .defined off) :
    busRead s addr size = .next { s with rdata := some (readOffset s.regs off) :: s.rdata } := by
  simp [busRead, h, hrst]

variable (v : Word)

theorem busWrite_outside (h : classify s.cfg addr size = .outside) : busWrite s addr size v = .next s := by
  rw [busWrite, h]

theorem busWrite_undefined (h : classify s.cfg addr size = .undefined) :
    busWrite s addr size v = .fault (.undefinedAccess addr size) := by
  rw [busWrite, h]

theorem busWrite_defined {off : Nat} (hrst : s.rst = false) (h : classify s.cfg addr size = .defined off) :
    busWrite s addr size v = .next { s with regs := writeOffset s.regs off v } := by
  simp [busWrite, h, hrst]

end

/-! ### A scheduled host access is one step (rules R21, R63) -/

section
variable {s : State} {ts : List Turn} {ops : List HostOp} {addr size : Nat}

theorem step_host_read (hs : s.sched = .host :: ts) (hh : s.host = .read addr size :: ops) :
    step s = busRead { s with sched := ts, host := ops } addr size := by
  simp [step, takeTurn, hostTurn, hs, hh]

theorem step_host_write {v : Word} (hs : s.sched = .host :: ts) (hh : s.host = .write addr size v :: ops) :
    step s = busWrite { s with sched := ts, host := ops } addr size v := by
  simp [step, takeTurn, hostTurn, hs, hh]

end

/-- Settles O34: the class of the access is `undefined`, on which the bus faults, read or write. -/
theorem undefinedAccessFaults : Obligations.UndefinedAccessFaults := by
  intro s ts ops addr size v _ hwin hbad hs
  have hclass : classify s.cfg addr size = .undefined := classify_undefined s.cfg hwin (by omega)
  refine ⟨fun hh => ?_, fun hh => ?_⟩
  · rw [step_host_read hs hh]
    exact busRead_undefined hclass
  · rw [step_host_write hs hh]
    exact busWrite_undefined v hclass

/-- Settles O35: the class of the access is `outside`, on which the bus leaves the registers alone. -/
theorem noResponseOutsideTheWindow : Obligations.NoResponseOutsideTheWindow := by
  intro s ts ops addr size v hout hsize hs
  have hclass := classify_outside s.cfg hout hsize
  refine ⟨fun hh => ?_, fun hh => ?_⟩
  · rw [step_host_read hs hh]
    exact busRead_outside hclass
  · rw [step_host_write hs hh]
    exact busWrite_outside v hclass

/-- Settles O32: the access is defined, at its offset. -/
theorem hostWriteIsOneStep : Obligations.HostWriteIsOneStep := by
  intro s ts ops off v hrst hlt hal hs hh
  rw [step_host_write hs hh]
  exact busWrite_defined v hrst (classify_defined s.cfg hlt hal)

/-- Settles O33: the access is defined, at its offset. -/
theorem hostReadHasNoSideEffect : Obligations.HostReadHasNoSideEffect := by
  intro s ts ops off hrst hlt hal hs hh
  rw [step_host_read hs hh]
  exact busRead_defined hrst (classify_defined s.cfg hlt hal)

/-- Settles O55: the step answers a next state (`step_ok`), which keeps the invariant, and the host's queue never grows
(`step_host_cfg`). -/
theorem safeHostsNeverStop : Obligations.SafeHostsNeverStop := by
  rintro s ⟨hinv, hcontract⟩
  obtain ⟨t, ht⟩ := step_ok hcontract
  obtain ⟨hhost, hcfg⟩ := step_host_cfg ht
  refine ⟨t, ht, step_keeps_inv ht hinv, fun op hop => ?_⟩
  rw [hcfg]
  exact hcontract op (hhost op hop)

end Sys2Proof.Machine
end

section
/-! PROOFS. A write done twice (rule R67): target by target it is the write done once, but for a START. -/

namespace Sys2Proof.Machine

/-- The later of two writes to one limb stands (rule R48). -/
theorem setLimb_setLimb {W : Nat} (x : BitVec W) (k : Nat) (v w : Word) :
    setLimb (setLimb x k v) k w = setLimb x k w := by
  refine BitVec.eq_of_getLsbD_eq fun i hi => ?_
  simp only [getLsbD_setLimb, decide_eq_true hi, Bool.true_and]
  split <;> rfl

section
variable {W : Nat} (r : Regs W)

theorem setOperand_setOperand (x : WideReg) (y z : BitVec W) :
    (r.setOperand x y).setOperand x z = r.setOperand x z := by
  cases x <;> rfl

theorem setOperand_busy (x : WideReg) (y : BitVec W) : (r.setOperand x y).busy = r.busy := by
  cases x <;> rfl

variable (v : Word)

theorem writeCmd_idem : writeCmd (writeCmd r v) v = writeCmd r v := by
  cases hb : r.busy
  · rw [writeCmd_idle r v hb]
    exact writeCmd_idle _ v hb
  · rw [writeCmd_busy r v hb]
    exact writeCmd_busy (dropWrite r) v hb

theorem writeStatus_idem : writeStatus (writeStatus r v) v = writeStatus r v := by
  simp only [writeStatus, Bool.and_assoc, Bool.and_self]

theorem writeLimb_idem (x : WideReg) (k : Nat) : writeLimb (writeLimb r x k v) x k v = writeLimb r x k v := by
  cases hx : x.isOperand
  · simp only [writeLimb_result _ v x k hx]
  · cases hb : r.busy
    · rw [writeLimb_idle r v x k hx hb, writeLimb_idle _ v x k hx (by rw [setOperand_busy, hb]),
        wide_setOperand_same r hx, setLimb_setLimb, setOperand_setOperand]
    · rw [writeLimb_busy r v x k hx hb]
      exact writeLimb_busy (dropWrite r) v x k hx hb

/-- A write to `CTRL` that resets, or that neither resets nor starts, is idempotent (rules R36, R37). -/
theorem writeCtrl_idem (h : ¬ (v.getLsbD 1 = false ∧ v.getLsbD 0 = true)) :
    writeCtrl (writeCtrl r v) v = writeCtrl r v := by
  cases h1 : v.getLsbD 1
  · have h0 : v.getLsbD 0 = false := Bool.eq_false_iff.mpr fun h0 => h ⟨h1, h0⟩
    simp only [writeCtrl_ien _ v h1 h0]
  · simp only [writeCtrl_reset _ v h1]

/-- Every write that is no START is idempotent (rule R67). -/
theorem writeOffset_idem {off : Nat} (h : ¬ (off = 0x004 ∧ v.getLsbD 1 = false ∧ v.getLsbD 0 = true)) :
    writeOffset (writeOffset r off v) off v = writeOffset r off v := by
  have hform := decodeOffset_form W off
  unfold writeOffset
  generalize decodeOffset W off = tgt at hform
  cases hform with
  | info | reserved | unusedLimb => rfl
  | ctrl hoff => exact writeCtrl_idem r v fun hv => h ⟨hoff, hv⟩
  | cmd => exact writeCmd_idem r v
  | status => exact writeStatus_idem r v
  | limb x k => exact writeLimb_idem r v x k

variable {v} (h1 : v.getLsbD 1 = false) (h0 : v.getLsbD 0 = true)
include h1 h0

/-- After a START, accepted or dropped, the core is busy (rules R35, R50). -/
theorem writeCtrl_start_sets_busy : (writeCtrl r v).busy = true := by
  cases hb : r.busy
  · rw [writeCtrl_start_idle r v h1 h0 hb, acceptStart_busy]
  · rw [writeCtrl_start_busy r v h1 h0 hb, dropWrite_busy, hb]

/-- The second of two STARTs finds the core busy and is dropped (rules R50, R67). -/
theorem writeCtrl_start_twice_lost : (writeCtrl (writeCtrl r v) v).lost = true := by
  rw [writeCtrl_start_busy _ v h1 h0 (writeCtrl_start_sets_busy r h1 h0), dropWrite_lost]

/-- An accepted START leaves `LOST` as it is (rule R35). -/
theorem writeCtrl_start_idle_lost (hb : r.busy = false) : (writeCtrl r v).lost = r.lost := by
  rw [writeCtrl_start_idle r v h1 h0 hb, acceptStart_lost]

end

/-- Settles O47: `writeOffset_idem`, and for a START the bit `LOST`, which the second one sets and the first does not. -/
theorem writesAreIdempotentButStart : Obligations.WritesAreIdempotentButStart := by
  intro W r off v _
  refine ⟨writeOffset_idem r v, ?_⟩
  rintro ⟨rfl, h1, h0⟩
  simp only [writeOffset_ctrl]
  have htwice := writeCtrl_start_twice_lost r h1 h0
  refine ⟨htwice, fun hb hl heq => ?_⟩
  rw [heq, writeCtrl_start_idle_lost r h1 h0 hb, hl] at htwice
  cases htwice

end Sys2Proof.Machine
end

section
/-! PROOFS. The command word (rules R79 to R85): its two fields as digits of its number, the decoder and the encoder as each
other's inverse, legality, and the completion of a word that is no command. -/

namespace Sys2Proof

theorem opField_toNat (w : Word) : (opField w).toNat = w.toNat % 16 := by
  rw [opField, BitVec.extractLsb'_toNat, Nat.shiftRight_zero]

theorem rsvdField_toNat (w : Word) : (rsvdField w).toNat = w.toNat / 16 := by
  have hlt : w.toNat < 2 ^ 32 := w.isLt
  rw [rsvdField, BitVec.extractLsb'_toNat, Nat.shiftRight_eq_div_pow]
  omega

/-- A field `OP` that selects a command is that command's number (rule R82). -/
theorem toNat_of_decodeOpcode {op : BitVec 4} {i : Instr} (h : decodeOpcode op = .ok i) : op.toNat = (encode i).toNat := by
  unfold decodeOpcode at h
  split at h <;> cases h <;> assumption

/-- A word that is a command has its field `RSVD` zero, and its field `OP` selects the command (rules R82, R83). -/
theorem fields_of_decodeWord {w : Word} {i : Instr} (h : decodeWord w = .ok i) :
    rsvdField w = 0 ∧ decodeOpcode (opField w) = .ok i := by
  unfold decodeWord at h
  split at h
  case isTrue hrsvd => exact ⟨hrsvd, h⟩
  case isFalse => cases h

/-- A word that is a command is the command's own word: its two fields leave no other (rule R82). -/
theorem eq_encode_of_decodeWord {w : Word} {i : Instr} (h : decodeWord w = .ok i) : w = encode i := by
  obtain ⟨hrsvd, hop⟩ := fields_of_decodeWord h
  have hhigh : w.toNat / 16 = 0 := by rw [← rsvdField_toNat, hrsvd]; rfl
  have hlow : w.toNat % 16 = (encode i).toNat := by rw [← opField_toNat, toNat_of_decodeOpcode hop]
  exact BitVec.eq_of_toNat_eq (by omega)

theorem legalWord_encode (i : Instr) : LegalWord (encode i) := by
  cases i <;> decide

/-- The numbers 1 to 9 are the words of commands (rule R82). -/
theorem exists_encode_toNat {n : Nat} (hlo : 1 ≤ n) (hhi : n ≤ 9) : ∃ i, (encode i).toNat = n := by
  interval_cases n
  exacts [⟨.add, rfl⟩, ⟨.sub, rfl⟩, ⟨.mul, rfl⟩, ⟨.div, rfl⟩, ⟨.mod, rfl⟩, ⟨.divmod, rfl⟩, ⟨.cmp, rfl⟩, ⟨.inv, rfl⟩,
    ⟨.powmod, rfl⟩]

/-- A legal word is the word of some command (rules R82, R83). -/
theorem exists_encode_of_legalWord {w : Word} (h : LegalWord w) : ∃ i, w = encode i := by
  obtain ⟨hrsvd, hlo, hhi⟩ := h
  obtain ⟨i, hi⟩ := exists_encode_toNat (n := w.toNat) (by omega) (by omega)
  exact ⟨i, BitVec.eq_of_toNat_eq hi.symm⟩

/-- The decoder on bytes reads the word the first four bytes are the lanes of (rules R61, R79). -/
theorem decodeBytes_of_decodeWord {w : Word} {i : Instr} (h : decodeWord w = .ok i) (rest : List Byte) :
    decodeBytes (wordBytes w ++ rest) = .ok (i, rest) := by
  simp only [wordBytes, List.cons_append, List.nil_append, decodeBytes, wordOfLanes_byteLane, h]

end Sys2Proof

namespace Sys2Proof.Machine

/-- The decoder takes exactly the legal words (rules R83, R85). -/
theorem decodeWord_isOk_iff_legalWord (w : Word) : (∃ i, decodeWord w = .ok i) ↔ LegalWord w := by
  constructor
  · rintro ⟨i, hi⟩
    exact eq_encode_of_decodeWord hi ▸ legalWord_encode i
  · intro h
    obtain ⟨i, rfl⟩ := exists_encode_of_legalWord h
    exact ⟨i, decodeWord_encode i⟩

/-- The completion of an illegal word records `ILLEGAL_COMMAND` and ends the command (rule R115). -/
theorem completion_of_not_legalWord {s : State} (h : ¬ LegalWord s.regs.cmd) :
    completion s = .next { s with regs := { s.regs with errcode := 1, busy := false, done := true } } := by
  unfold completion
  cases hd : decodeWord s.regs.cmd with
  | ok i => exact absurd ((decodeWord_isOk_iff_legalWord _).mp ⟨i, hd⟩) h
  | error e => exact complete_error s .illegalCommand

/-- Settles O5: the words 1 to 9 are the encodings of the nine commands; each of the others is looked up. -/
theorem opcodeMapWords : Obligations.OpcodeMapWords := by
  refine ⟨decodeWord_encode .add, decodeWord_encode .sub, decodeWord_encode .mul, decodeWord_encode .div,
    decodeWord_encode .mod, decodeWord_encode .divmod, decodeWord_encode .cmp, decodeWord_encode .inv,
    decodeWord_encode .powmod, ?_⟩
  simp only [List.forall_mem_cons]
  exact ⟨rfl, rfl, rfl, rfl, rfl, rfl, rfl, nofun⟩

/-- Settles O6: `decodeWord_encode` on words, from which the bytes of the word decode too. -/
theorem decodeOfEncode : Obligations.DecodeOfEncode :=
  fun i rest => ⟨decodeWord_encode i, decodeBytes_of_decodeWord (decodeWord_encode i) rest, legalWord_encode i⟩

/-- Settles O7: the two fields determine the word. -/
theorem encodeOfDecode : Obligations.EncodeOfDecode :=
  fun _ _ => eq_encode_of_decodeWord

/-- Settles O8: the legal words are the words of the commands; a START does not look at `CMD`. -/
theorem illegalWordsFailAtCompletion : Obligations.IllegalWordsFailAtCompletion :=
  ⟨decodeWord_isOk_iff_legalWord, fun _ r _ => writeCtrl_start_sets_busy r (by decide) (by decide),
    fun _ => completion_of_not_legalWord⟩

end Sys2Proof.Machine
end

section
/-! PROOFS. Values and limbs (rules R16, R86, R87): a register as the weighted sum of its limbs, and the limbs of a value
that fits 32 bits. -/

namespace Sys2Proof.Machine

/-- The sum over a list of limbs, written with the weight of each limb (rule R86). -/
theorem limbSum_map_range (f : Nat → Word) (n : Nat) :
    limbSum ((List.range n).map f) = ∑ k ∈ Finset.range n, (f k).toNat * 2 ^ (32 * k) := by
  induction n generalizing f with
  | zero => rfl
  | succ n ih =>
    have hshift : ∀ k, (f (k + 1)).toNat * 2 ^ (32 * (k + 1)) = 2 ^ 32 * ((f (k + 1)).toNat * 2 ^ (32 * k)) :=
      fun k => by ring
    rw [List.range_succ_eq_map, List.map_cons, List.map_map, limbSum, ih, Finset.sum_range_succ', Finset.mul_sum]
    simp only [hshift, Function.comp_apply, Nat.succ_eq_add_one, Nat.mul_zero, pow_zero, Nat.mul_one]
    exact Nat.add_comm _ _

/-- Settles O3: `limbSum_limbs` for all the limbs of the register. -/
theorem registerIsTheSumOfItsLimbs : Obligations.RegisterIsTheSumOfItsLimbs := by
  refine ⟨fun W x hW => ?_, fun s => ⟨rfl, rfl, rfl⟩⟩
  rw [← limbSum_map_range, limbSum_limbs, Nat.mul_div_cancel' (Nat.dvd_of_mod_eq_zero hW), Nat.mod_eq_of_lt x.isLt]

/-- The content that denotes a value of 32 signed bits is the sign extension of the value's 32-bit word (rules R16, R87). -/
theorem enc_eq_sext32 (W : Nat) {v : Int} (h : Fits 32 v) : enc W v = sext32 W (enc 32 v) := by
  have hv : (enc 32 v).toInt = v := val_enc (by decide) h
  rw [sext32, BitVec.signExtend, hv, enc]

/-- Limb 0 of a sign extension is the word extended (rule R16). -/
theorem limb_sext32_zero {W : Nat} (hW : 32 ≤ W) (w : Word) : limb (sext32 W w) 0 = w := by
  refine BitVec.eq_of_getLsbD_eq fun i hi => ?_
  have hiW : 32 * 0 + i < W := by omega
  rw [getLsbD_limb, sext32, BitVec.getLsbD_signExtend, decide_eq_true hi, decide_eq_true hiW, if_pos (by omega),
    Nat.mul_zero, Nat.zero_add, Bool.true_and, Bool.true_and]

/-- Every further limb of a sign extension repeats the sign bit (rule R16). -/
theorem limb_sext32_of_pos {W k : Nat} (hk : 1 ≤ k) (hkW : k < W / 32) (w : Word) :
    limb (sext32 W w) k = if w.msb then 0xFFFFFFFF#32 else 0 := by
  refine BitVec.eq_of_getLsbD_eq fun i hi => ?_
  have hiW : 32 * k + i < W := by omega
  rw [getLsbD_limb, sext32, BitVec.getLsbD_signExtend, decide_eq_true hi, decide_eq_true hiW, if_neg (by omega),
    Bool.true_and, Bool.true_and]
  cases w.msb
  · exact BitVec.getLsbD_zero.symm
  · exact (BitVec.getLsbD_allOnes.trans (decide_eq_true hi)).symm

/-- Settles O58: the register is the sign extension of the value's 32-bit word, whose sign bit is the value's sign. -/
theorem smallValuesAreSignExtended : Obligations.SmallValuesAreSignExtended := by
  intro W v _ hW hlo hhi
  have hfits : Fits 32 v := ⟨hlo, hhi⟩
  have hzero : limb (enc W v) 0 = enc 32 v := by rw [enc_eq_sext32 W hfits, limb_sext32_zero (by omega)]
  have hsign : (enc 32 v).msb = decide (v < 0) := by
    rw [BitVec.msb_eq_toInt, show (enc 32 v).toInt = v from val_enc (by decide) hfits]
  refine ⟨?_, fun k hk hkW => ?_, ?_⟩
  · rw [hzero, toNat_enc]
  · rw [enc_eq_sext32 W hfits, limb_sext32_of_pos hk hkW, hsign]
    simp only [decide_eq_true_eq]
  · rw [hzero, enc_eq_sext32 W hfits]

end Sys2Proof.Machine
end

section
/-! PROOFS. The operands and the results of the commands (rules R81, R88): which command reads `OPC`, and the range of the
modular results. -/

namespace Sys2Proof.Machine

/-! ### What a command reads (rule R81) -/

/-- Only the result of POWMOD depends on the third operand. -/
theorem commandOf_of_ne_powmod (W : Nat) (a b d d' : Int) {i : Instr} (h : i ≠ .powmod) :
    commandOf W a b d i = commandOf W a b d' i := by
  cases i with
  | powmod => exact absurd rfl h
  | add | sub | mul | div | mod | divmod | cmp | inv => rfl

/-- A change of registers that each single write of a completion passes by, all of them together pass by. -/
theorem applyWrites_comm {W : Nat} {f : Regs W → Regs W} (hf : ∀ r w, applyWrite (f r) w = f (applyWrite r w)) (r : Regs W)
    (ws : List (RegWrite W)) : applyWrites (f r) ws = f (applyWrites r ws) :=
  List.foldl_hom f hf

/-- No register write of a completion reads or reaches `OPC` (rule R25). -/
theorem finish_set_opc {W : Nat} (r : Regs W) (x : BitVec W) (out : CommandResult W) :
    finish { r with opc := x } out = { finish r out with opc := x } := by
  cases out with
  | error c => rfl
  | ok ws =>
    have hwrites : applyWrites { r with opc := x } ws = { applyWrites r ws with opc := x } :=
      applyWrites_comm (f := fun r => { r with opc := x }) (fun _ w => by cases w <;> rfl) r ws
    simp only [finish, takeSuccess, hwrites]

/-- Settles O24: the same result (`commandOf_of_ne_powmod`), and a completion that passes `OPC` by (`finish_set_opc`). -/
theorem onlyPowmodReadsOpc : Obligations.OnlyPowmodReadsOpc := by
  intro i s x hi
  refine ⟨_, exec_eq_complete i s, ?_⟩
  rw [exec_eq_complete, State.complete, finish_set_opc, commandOf_of_ne_powmod _ _ _ _ s.valC hi]
  rfl

/-! ### The range of the modular results (rule R88) -/

/-- What INV, MOD and POWMOD end with: an error, or a value of `[0, MAX]` for `RES0` (rule R88). -/
inductive NonNegativeResult (W : Nat) : CommandResult W → Prop where
  | error (c : ErrorCode) : NonNegativeResult W (.error c)
  | ok (v : Int) (hlo : 0 ≤ v) (hhi : v ≤ maxVal W) : NonNegativeResult W (.ok [.res0 (enc W v)])

theorem modCommand_nonNegative {W : Nat} (a : Int) {b : Int} (hb : Fits W b) : NonNegativeResult W (modCommand W a b) := by
  unfold modCommand
  split
  case isTrue => exact .error _
  case isFalse hne =>
    have hpos := absVal_pos hne
    have hlt := nnmod_lt a hpos
    have habs : absVal b ≤ maxVal W + 1 := by
      have := maxVal_eq W
      obtain ⟨hlo, hhi⟩ := hb
      unfold absVal
      split <;> omega
    exact .ok _ (nnmod_nonneg a hpos) (by omega)

theorem invCommand_nonNegative {W : Nat} (a : Int) {m : Int} (hm : Fits W m) : NonNegativeResult W (invCommand W a m) := by
  unfold invCommand
  split
  case isTrue => exact .error _
  case isFalse hpos =>
    have hpos : 0 < m := not_le.mp hpos
    have hsound := euclidLoop_sound m.toNat (Euclid.start_sound (nnmod_nonneg a hpos) (nnmod_lt a hpos))
    have ⟨hlo, hhi⟩ := abs_le.mp hsound.oldS_le
    have hmax := hm.2
    split
    · exact .error _
    · unfold euclid
      split
      · exact .ok _ (by omega) (by omega)
      · exact .ok _ (by omega) (by omega)

theorem powmodCommand_nonNegative {W : Nat} (base e : Int) {m : Int} (hm : Fits W m) :
    NonNegativeResult W (powmodCommand W base e m) := by
  unfold powmodCommand
  split
  case isTrue => exact .error _
  case isFalse hdom =>
    have ⟨hpos, he⟩ : 0 < m ∧ 0 ≤ e := by omega
    have hsound := powLoop_sound hpos (bitlen e.toNat) (Power.start_sound (base := base) hpos he)
    have hmax := hm.2
    exact .ok _ hsound.acc_nonneg (hsound.acc_lt.le.trans hmax)

theorem commandOf_nonNegative {s : State} (hW : 0 < s.cfg.W) {i : Instr} (hi : i = .inv ∨ i = .mod ∨ i = .powmod) :
    NonNegativeResult s.cfg.W (commandOf s.cfg.W s.valA s.valB s.valC i) := by
  rcases hi with rfl | rfl | rfl
  · exact invCommand_nonNegative _ (val_fits hW _)
  · exact modCommand_nonNegative _ (val_fits hW _)
  · exact powmodCommand_nonNegative _ _ (val_fits hW _)

/-- A content that denotes no negative value has its sign bit clear (rule R13). -/
theorem sign_bit_clear_of_val_nonneg {W : Nat} {x : BitVec W} (h : 0 ≤ val x) : x.getLsbD (W - 1) = false := by
  rw [← BitVec.msb_eq_getLsbD_last, BitVec.msb_eq_toInt]
  exact decide_eq_false (not_lt.mpr h)

theorem code_ne_zero (c : ErrorCode) : c.code ≠ 0 := by
  cases c <;> decide

/-- A completion without an error code leaves such a result in `RES0`. -/
theorem finish_res0_nonNegative {W : Nat} (hW : 0 < W) (r : Regs W) {out : CommandResult W} (h : NonNegativeResult W out)
    (hok : (finish r out).errcode = 0) : 0 ≤ val (finish r out).res0 ∧ val (finish r out).res0 ≤ maxVal W := by
  cases h with
  | error c => exact absurd hok (code_ne_zero c)
  | ok v hlo hhi =>
    have hmin : minVal W ≤ v := by have := maxVal_eq W; omega
    have hres : val (finish r (.ok [.res0 (enc W v)])).res0 = v := val_enc hW ⟨hmin, hhi⟩
    rw [hres]
    exact ⟨hlo, hhi⟩

/-- Settles O25: by the range of each command's result; the sign bit is then clear. -/
theorem modularResultsNonNegative : Obligations.ModularResultsNonNegative := by
  rintro i s ⟨-, hmin, -, -⟩ hi
  refine ⟨_, exec_eq_complete i s, fun hok => ?_⟩
  obtain ⟨hlo, hhi⟩ := finish_res0_nonNegative (by omega) s.regs (commandOf_nonNegative (by omega) hi) hok
  exact ⟨sign_bit_clear_of_val_nonneg hlo, hlo, hhi⟩

end Sys2Proof.Machine
end

section
/-! PROOFS. The pseudo-instructions of the host (rules R89 to R91) on an idle core under the eager schedule (log 2): one
access of the host a step, and the runs of `ld`, `run` and `get`. -/

namespace Sys2Proof.Machine

/-! ### A step of the host at an idle core -/

/-- The state in which the eager schedule gives the host the next turn, and the core answers it: no turn is prescribed, no
command is in progress, and the reset input is not asserted (log 2). -/
structure State.Idle (s : State) : Prop where
  not_asserted : s.rst = false
  not_busy : s.regs.busy = false
  eager : s.sched = []

section
variable {s : State} {ops : List HostOp}

theorem step_of_idle (h : s.Idle) : step s = hostTurn s := by
  simp [step, defaultTurn, takeTurn, h.eager, h.not_busy]

/-- A defined write at an idle core is the next step (rules R59, R63). -/
theorem step_wr {off : Nat} {v : Word} {r : Regs s.cfg.W} (h : s.Idle) (hlt : off < 0x1000) (hal : off % 4 = 0)
    (hh : s.host = wr s.cfg off v :: ops) (hr : writeOffset s.regs off v = r) :
    step s = .next { s with host := ops, regs := r } := by
  subst hr
  simp only [step_of_idle h, hostTurn, hh, wr]
  exact busWrite_defined v h.not_asserted (classify_defined s.cfg hlt hal)

/-- A defined read at an idle core is the next step (rules R59, R65). -/
theorem step_rd {off : Nat} {w : Word} (h : s.Idle) (hlt : off < 0x1000) (hal : off % 4 = 0)
    (hh : s.host = rd s.cfg off :: ops) (hw : readOffset s.regs off = w) :
    step s = .next { s with host := ops, rdata := some w :: s.rdata } := by
  subst hw
  simp only [step_of_idle h, hostTurn, hh, rd]
  exact busRead_defined h.not_asserted (classify_defined s.cfg hlt hal)

theorem step_collect {t : State} (h : s.Idle) (hh : s.host = .collect :: ops) (ht : hostCollect s ops = t) :
    step s = .next t := by
  simp only [step_of_idle h, hostTurn, hh, ht]

/-- A `wait` at an idle core reads `STATUS` once and goes on (rule R90). -/
theorem step_wait (h : s.Idle) (hh : s.host = .wait :: ops) :
    step s = .next { s with host := ops, rdata := some (readOffset s.regs 0x00C) :: s.rdata } := by
  have hread := busRead_defined h.not_asserted (classify_defined s.cfg (off := 0x00C) (by decide) (by decide))
  have hbusy : (readOffset s.regs 0x00C).getLsbD 0 = false := (statusBits s.cfg.W s.regs).1.trans h.not_busy
  simp only [step_of_idle h, hostTurn, hh, hostWait, statusAddr, hread, polledBusy, hbusy, Bool.false_eq_true, if_false]

/-- A busy core that is not under reset completes next when no turn is prescribed (rule R118; log 2). -/
theorem step_of_busy (hrst : s.rst = false) (hb : s.regs.busy = true) (hs : s.sched = []) : step s = completion s := by
  simp [step, defaultTurn, takeTurn, coreTurn, hs, hb, hrst]

end

/-- A run of one step more is the run, then the step. -/
theorem run_snoc {n : Nat} {s t u : State} (hrun : Sys2Proof.core.run n s = .next t) (hstep : step t = .next u) :
    Sys2Proof.core.run (n + 1) s = .next u := by
  induction n generalizing s with
  | zero =>
    cases hrun
    rw [run_succ hstep, run_zero]
  | succ n ih =>
    cases hs : step s with
    | next s' =>
      rw [run_succ hs] at hrun ⊢
      exact ih hrun
    | fault f => simp [Host.Core.run, show Sys2Proof.core.step s = .fault f from hs] at hrun
    | refused f => simp [Host.Core.run, show Sys2Proof.core.step s = .refused f from hs] at hrun

/-! ### The accesses of `ld` and `get` limb by limb (rules R31, R90) -/

/-- The limbs of a wide register stand at aligned offsets of the window (rules R30, R31). -/
theorem limbOffset_defined (x : WideReg) {k : Nat} (h : k < 64) : limbOffset x k < 0x1000 ∧ limbOffset x k % 4 = 0 := by
  cases x <;> simp only [limbOffset, WideReg.start] <;> omega

/-- The register content `x` with its lowest `n` limbs replaced by those of `y`, the lowest first (rules R48, R90). -/
def loadLimbs {W : Nat} (x y : BitVec W) : Nat → BitVec W
  | 0 => x
  | n + 1 => setLimb (loadLimbs x y n) n (limb y n)

theorem limb_loadLimbs {W : Nat} (x y : BitVec W) {n k : Nat} (hn : n ≤ W / 32) (hk : k < n) :
    limb (loadLimbs x y n) k = limb y k := by
  induction n with
  | zero => omega
  | succ n ih =>
    rw [loadLimbs]
    rcases Nat.lt_succ_iff_lt_or_eq.mp hk with hlt | rfl
    · rw [limb_setLimb_ne _ _ hlt.ne, ih (by omega) hlt]
    · exact limb_setLimb_same _ _ (by omega)

/-- All limbs replaced, the content is replaced (rule R86). -/
theorem loadLimbs_all {W : Nat} (hW : W % 32 = 0) (x y : BitVec W) : loadLimbs x y (W / 32) = y :=
  eq_of_limb_eq hW fun _ hk => limb_loadLimbs x y le_rfl hk

theorem setOperand_wide {W : Nat} (r : Regs W) (x : WideReg) : r.setOperand x (r.wide x) = r := by
  cases x <;> rfl

/-- `n` limb writes to an operand register at an idle core leave its lowest `n` limbs replaced and nothing else changed. -/
theorem run_writeLimbs {s : State} {x : WideReg} (y : BitVec s.cfg.W) {n : Nat} {ops : List HostOp} (hidle : s.Idle)
    (hx : x.isOperand = true) (hn : n ≤ s.cfg.limbs) (hmax : s.cfg.limbs ≤ 64)
    (hh : s.host = ((List.range n).map fun k => wr s.cfg (limbOffset x k) (limb y k)) ++ ops) :
    Sys2Proof.core.run n s =
      .next { s with host := ops, regs := s.regs.setOperand x (loadLimbs (s.regs.wide x) y n) } := by
  induction n generalizing ops with
  | zero =>
    have hops : s.host = ops := hh
    rw [loadLimbs, setOperand_wide, ← hops, run_zero]
  | succ n ih =>
    rw [List.range_succ, List.map_append, List.append_assoc] at hh
    have hbusy : (s.regs.setOperand x (loadLimbs (s.regs.wide x) y n)).busy = false :=
      (setOperand_busy _ _ _).trans hidle.not_busy
    have ⟨hlt, hal⟩ := limbOffset_defined x (k := n) (by omega)
    refine run_snoc (ih (by omega) hh) (step_wr ⟨hidle.not_asserted, hbusy, hidle.eager⟩ hlt hal rfl ?_)
    rw [limbOffset, writeOffset_limb _ (by omega) hn, writeLimb_idle _ _ _ _ hx hbusy, wide_setOperand_same _ hx,
      setOperand_setOperand, loadLimbs]

/-- `n` limb reads at an idle core record the lowest `n` limbs, the newest first, and change nothing else (rule R65). -/
theorem run_readLimbs {s : State} (x : WideReg) {n : Nat} {ops : List HostOp} (hidle : s.Idle)
    (hn : n ≤ s.cfg.limbs) (hmax : s.cfg.limbs ≤ 64)
    (hh : s.host = ((List.range n).map fun k => rd s.cfg (limbOffset x k)) ++ ops) :
    Sys2Proof.core.run n s =
      .next { s with
        host := ops, rdata := ((List.range n).map fun k => some (limb (s.regs.wide x) k)).reverse ++ s.rdata } := by
  induction n generalizing ops with
  | zero =>
    have hops : s.host = ops := hh
    rw [← hops]
    rfl
  | succ n ih =>
    rw [List.range_succ, List.map_append, List.append_assoc] at hh
    have ⟨hlt, hal⟩ := limbOffset_defined x (k := n) (by omega)
    rw [List.range_succ, List.map_append, List.reverse_append]
    exact run_snoc (ih (by omega) hh) (step_rd ⟨hidle.not_asserted, hidle.not_busy, hidle.eager⟩ hlt hal rfl
      (readOffset_limb s.regs (by omega) hn))

/-- Settles O57: the `L` limb writes replace all of the register (`loadLimbs_all`). -/
theorem loadGivesTheRegisterItsValue : Obligations.LoadGivesTheRegisterItsValue := by
  rintro s x v rest ⟨hW, hmin, hmax, -⟩ hrst hbusy hsched hx hfits hh
  have hop : x.isOperand = true := by rcases hx with rfl | rfl | rfl <;> rfl
  have hrun := run_writeLimbs (enc s.cfg.W v) ⟨hrst, hbusy, hsched⟩ hop le_rfl (by simp only [Config.limbs]; omega) hh
  rw [loadLimbs_all hW] at hrun
  exact ⟨hrun, by rw [wide_setOperand_same _ hop, val_enc (by omega) hfits]⟩

/-- Settles O60: the `L` limb reads, and a `collect` that finds their words the newest. -/
theorem getGivesTheRegistersValue : Obligations.GetGivesTheRegistersValue := by
  rintro s x rest ⟨hW, -, hmax, -⟩ hrst hbusy hsched hh
  rw [get, readLimbs, List.append_assoc] at hh
  have hrun := run_readLimbs x ⟨hrst, hbusy, hsched⟩ le_rfl (by simp only [Config.limbs]; omega) hh
  refine run_snoc hrun (step_collect ⟨hrst, hbusy, hsched⟩ rfl (hostCollect_of_limbs ?_ rfl rest))
  exact hW

/-! ### The run of a command (rules R90, R91) -/

/-- What an accepted START changes, a completion overwrites (rules R35, R118). -/
theorem finish_acceptStart {W : Nat} (r : Regs W) (out : CommandResult W) : finish (acceptStart r) out = finish r out := by
  cases out with
  | error c => rfl
  | ok ws =>
    have hwrites : applyWrites (acceptStart r) ws = acceptStart (applyWrites r ws) :=
      applyWrites_comm (fun _ w => by cases w <;> rfl) r ws
    simp only [finish, takeSuccess, hwrites]
    rfl

/-- The step after an accepted START is the completion on the registers before it (rules R35, R118; log 2). -/
theorem step_of_accepted {s : State} (hrst : s.rst = false) (hs : s.sched = []) :
    step { s with regs := acceptStart s.regs } = .next { s with regs := finish s.regs (outcomeOf s) } := by
  let accepted : State := { s with regs := acceptStart s.regs }
  have hout : outcomeOf accepted = outcomeOf s := rfl
  rw [step_of_busy (s := accepted) hrst (acceptStart_busy s.regs) hs, completion_eq, hout, finish_acceptStart]

/-- The write of `CMD` at an idle core is the next step (rule R39). -/
theorem step_wr_cmd {s : State} {w : Word} {ops : List HostOp} (h : s.Idle) (hh : s.host = wr s.cfg 0x008 w :: ops) :
    step s = .next { s with host := ops, regs := { s.regs with cmd := w } } :=
  step_wr h (by decide) (by decide) hh (writeCmd_idle s.regs w h.not_busy)

/-- `go` at an idle core accepts the command with the interrupt off (rules R35, R37, R90). -/
theorem step_go {s : State} {ops : List HostOp} (h : s.Idle) (hh : s.host = go s.cfg :: ops) :
    step s = .next { s with host := ops, regs := acceptStart { s.regs with ien := false } } :=
  step_wr h (by decide) (by decide) hh (writeCtrl_start_idle s.regs 0x1 (by decide) (by decide) h.not_busy)

/-- Settles O59: the write of `CMD`, the START, the completion and the one read of `wait`. -/
theorem runMacroIsTheCompletion : Obligations.RunMacroIsTheCompletion := by
  intro s w rest hrst hbusy hsched hh
  let stored : State := { s with host := go s.cfg :: .wait :: rest, regs := { s.regs with cmd := w } }
  let entered : State := { s with host := .wait :: rest, regs := { s.regs with cmd := w, ien := false } }
  let r : Regs s.cfg.W := finish entered.regs (outcomeOf entered)
  have hstored : stored.Idle := ⟨hrst, hbusy, hsched⟩
  have hcompleted : State.Idle { entered with regs := r } := ⟨hrst, finish_busy _ _, hsched⟩
  refine ⟨r, completion_eq _, ?_⟩
  calc Sys2Proof.core.run 4 s
      = Sys2Proof.core.run 3 stored := run_succ (step_wr_cmd ⟨hrst, hbusy, hsched⟩ hh) 3
    _ = Sys2Proof.core.run 2 { entered with regs := acceptStart entered.regs } := run_succ (step_go hstored rfl) 2
    _ = Sys2Proof.core.run 1 { entered with regs := r } := run_succ (step_of_accepted (s := entered) hrst hsched) 1
    _ = .next { s with regs := r, host := rest, rdata := some (readOffset r 0x00C) :: s.rdata } :=
        run_succ (step_wait hcompleted rfl) 0

end Sys2Proof.Machine
end

section
/-! PROOFS. ADD, SUB and CMP (rules R94 to R96): a command that ends with the exact value or `OVERFLOW`, and the comparison,
which always succeeds. -/

namespace Sys2Proof.Machine

section
variable {i : Instr} {s : State} {v : Int}

/-- A command whose result is the exact value `v` writes it when it fits (rules R94, R95, R97). -/
theorem exec_of_fits (hresult : commandOf s.cfg.W s.valA s.valB s.valC i = exactResult s.cfg.W v) (h : Fits s.cfg.W v) :
    exec i s = .next { s with regs := { s.regs with
      res0 := enc s.cfg.W v, errcode := 0, busy := false, done := true } } := by
  rw [exec_eq_complete, hresult, exactResult_of_fits h, complete_res0]

/-- A command whose result is the exact value `v` fails with `OVERFLOW` when it does not fit (rules R94, R95, R97). -/
theorem exec_of_not_fits (hresult : commandOf s.cfg.W s.valA s.valB s.valC i = exactResult s.cfg.W v)
    (h : ¬ Fits s.cfg.W v) :
    exec i s = .next { s with regs := { s.regs with errcode := 2, busy := false, done := true } } := by
  rw [exec_eq_complete, hresult, exactResult_of_not_fits h, complete_error]
  rfl

end

theorem val_enc_of_wellFormed {c : Config} (hc : c.WellFormed) {v : Int} (h : Fits c.W v) : val (enc c.W v) = v := by
  obtain ⟨-, hmin, -, -⟩ := hc
  exact val_enc (by omega) h

/-- All that CMP does (rule R96). -/
theorem exec_cmp (s : State) :
    exec .cmp s = .next { s with regs := { s.regs with
      lt := decide (s.valA < s.valB), eq := decide (s.valA = s.valB), gt := decide (s.valA > s.valB),
      errcode := 0, busy := false, done := true } } := by
  rw [exec_eq_complete, commandOf, cmpCommand, compareFlags, complete_flags]

/-- Settles O9: the result of ADD is the exact sum, which fits or does not. -/
theorem addExactOrOverflow : Obligations.AddExactOrOverflow :=
  ⟨decodeWord_encode .add, fun _ =>
    ⟨fun h => ⟨exec_of_fits rfl h, fun hc => val_enc_of_wellFormed hc h⟩, exec_of_not_fits rfl⟩⟩

/-- Settles O10: the result of SUB is the exact difference, which fits or does not. -/
theorem subExactOrOverflow : Obligations.SubExactOrOverflow :=
  ⟨decodeWord_encode .sub, fun _ =>
    ⟨fun h => ⟨exec_of_fits rfl h, fun hc => val_enc_of_wellFormed hc h⟩, exec_of_not_fits rfl⟩⟩

/-- Settles O12: the flags are the three comparisons, one of which holds (`compare_exactly_one`). -/
theorem cmpSetsExactlyOneFlag : Obligations.CmpSetsExactlyOneFlag :=
  ⟨decodeWord_encode .cmp, fun s =>
    ⟨_, _, _, exec_cmp s, decide_eq_true_iff, decide_eq_true_iff, decide_eq_true_iff,
      compare_exactly_one s.valA s.valB⟩⟩

end Sys2Proof.Machine
end

section
/-! PROOFS. MUL (rule R97): a command that ends with the exact product or `OVERFLOW`; a product that needs more than `W`
bits has no high half in `RES1`. -/

namespace Sys2Proof.Machine

/-- Settles O11: the result of MUL is the exact product, which fits or does not. -/
theorem mulExactOrOverflow : Obligations.MulExactOrOverflow :=
  ⟨decodeWord_encode .mul, fun _ =>
    ⟨fun h => ⟨exec_of_fits rfl h, fun hc => val_enc_of_wellFormed hc h⟩, exec_of_not_fits rfl⟩⟩

end Sys2Proof.Machine
end

section
/-! PROOFS. The divider (rules R98 to R101): the division identity by the sign of the divisor, the one quotient that does
not fit, and what DIV, MOD and DIVMOD do in each case. -/

namespace Sys2Proof.Machine

/-! ### The division identity (rule R98) -/

theorem division_identity_of_pos (a : Int) {b : Int} (h : 0 < b) : a = b * fdiv a b + nnmod a |b| := by
  rw [abs_of_pos h, nnmod]
  ring

theorem nnmod_abs_of_ne_zero (a : Int) {b : Int} (h : b ≠ 0) : nnmod a |b| = a % b := by
  rw [nnmod_of_pos a (abs_pos.mpr h), Int.emod_abs]

/-- The floor remainder is never positive and `nnmod` never negative, so they agree only where both are 0. -/
theorem division_identity_of_neg_iff (a : Int) {b : Int} (h : b < 0) : a = b * fdiv a b + nnmod a |b| ↔ b ∣ a := by
  have hne : b ≠ 0 := h.ne
  rw [nnmod_abs_of_ne_zero a hne]
  constructor
  · intro heq
    obtain ⟨-, hfloor⟩ := floor_remainder_of_neg a h
    have hnonneg := Int.emod_nonneg a hne
    exact Int.dvd_of_emod_eq_zero (by omega)
  · intro hdvd
    rw [Int.emod_eq_zero_of_dvd hdvd, add_zero]
    exact (Int.mul_fdiv_cancel_of_dvd hdvd).symm

/-- Settles O16: the definition of `nnmod` for `b > 0`; the floor remainder's range for `b < 0`. -/
theorem divisionIdentityBySign : Obligations.DivisionIdentityBySign := by
  refine ⟨fun a b => division_identity_of_pos a, fun a b h => ?_⟩
  obtain ⟨hlo, hhi⟩ := floor_remainder_of_neg a h
  exact ⟨hlo, hhi, division_identity_of_neg_iff a h⟩

/-! ### The range of the quotient and of the remainder (rules R98 to R100) -/

theorem fdiv_neg_one (a : Int) : fdiv a (-1) = -a := by
  rw [fdiv, ← Int.neg_fdiv_neg, neg_neg, Int.fdiv_one]

/-- Only a division by -1 turns a negative dividend into its negation. -/
theorem eq_neg_one_of_fdiv_eq_neg {a b : Int} (ha : a < 0) (h : fdiv a b = -a) : b = -1 := by
  rcases lt_trichotomy b 0 with hb | rfl | hb
  · obtain ⟨-, hrem⟩ := floor_remainder_of_neg a hb
    rw [h] at hrem
    have hprod : 0 ≤ a * (1 + b) := mul_nonneg_of_nonpos_of_nonpos ha.le (by omega)
    have hzero : a * (1 + b) = 0 := le_antisymm (by linarith) hprod
    have := (mul_eq_zero.mp hzero).resolve_left ha.ne
    omega
  · rw [fdiv, Int.fdiv_zero] at h
    omega
  · have hneg : fdiv a b < 0 := Int.fdiv_neg_of_neg_of_pos ha hb
    omega

section
variable {W : Nat} {a b : Int}

/-- A quotient is at most as large as its dividend, so it fits but for `MIN / -1` (rule R99). -/
theorem fdiv_fits (ha : Fits W a) (h : ¬ (a = minVal W ∧ b = -1)) : Fits W (fdiv a b) := by
  have habs : (fdiv a b).natAbs ≤ a.natAbs := Int.natAbs_fdiv_le_natAbs a b
  have hmax := maxVal_eq W
  obtain ⟨hlo, hhi⟩ := ha
  have hne : fdiv a b ≠ -minVal W := by
    intro heq
    have hmin : a = minVal W := by omega
    have hb : b = -1 := eq_neg_one_of_fdiv_eq_neg (a := a) (by omega) (by rw [heq, hmin])
    exact h ⟨hmin, hb⟩
  constructor <;> omega

/-- The remainder is below `|b|`, which is at most `MAX + 1` (rule R100). -/
theorem nnmod_abs_fits (a : Int) (hb : Fits W b) (hne : b ≠ 0) : Fits W (nnmod a |b|) := by
  have hnonneg := nnmod_nonneg a (abs_pos.mpr hne)
  have hlt := nnmod_lt a (abs_pos.mpr hne)
  have hmax := maxVal_eq W
  obtain ⟨hlo, hhi⟩ := hb
  have habs : |b| ≤ maxVal W + 1 := abs_le.mpr ⟨by omega, by omega⟩
  constructor <;> omega

/-! ### The results of the three commands, case by case (rules R99 to R101) -/

theorem fdiv_min_neg_one_gt (W : Nat) : fdiv (minVal W) (-1) > maxVal W := by
  rw [fdiv_neg_one, maxVal_eq]
  omega

theorem divCommand_of_zero (hb : b = 0) : divCommand W a b = .error .divByZero := if_pos hb

theorem divCommand_min_neg_one (h : a = minVal W ∧ b = -1) : divCommand W a b = .error .overflow := by
  obtain ⟨rfl, rfl⟩ := h
  rw [divCommand, if_neg (by decide), if_pos (fdiv_min_neg_one_gt W)]

theorem divCommand_of_fits (hb : b ≠ 0) (h : Fits W (fdiv a b)) : divCommand W a b = .ok [.res0 (enc W (fdiv a b))] := by
  rw [divCommand, if_neg hb, if_neg h.2.not_gt]

theorem modCommand_of_zero (hb : b = 0) : modCommand W a b = .error .divByZero := if_pos hb

theorem modCommand_of_ne_zero (hb : b ≠ 0) : modCommand W a b = .ok [.res0 (enc W (nnmod a |b|))] := by
  rw [modCommand, if_neg hb, absVal_eq_abs]

theorem divmodCommand_of_zero (hb : b = 0) : divmodCommand W a b = .error .divByZero := if_pos hb

theorem divmodCommand_min_neg_one (h : a = minVal W ∧ b = -1) : divmodCommand W a b = .error .overflow := by
  obtain ⟨rfl, rfl⟩ := h
  rw [divmodCommand, if_neg (by decide), if_pos (fdiv_min_neg_one_gt W)]

theorem divmodCommand_of_fits (hb : b ≠ 0) (h : Fits W (fdiv a b)) :
    divmodCommand W a b = .ok [.res0 (enc W (fdiv a b)), .res1 (enc W (nnmod a |b|))] := by
  rw [divmodCommand, if_neg hb, if_neg h.2.not_gt, absVal_eq_abs]

end

/-! ### The commands (rules R99 to R101) -/

section
variable {i : Instr} {s : State}

/-- A command whose result is an error changes `STATUS` only (rule R118). -/
theorem exec_of_error {c : ErrorCode} (h : commandOf s.cfg.W s.valA s.valB s.valC i = .error c) :
    exec i s = .next { s with regs := { s.regs with errcode := c.code, busy := false, done := true } } := by
  rw [exec_eq_complete, h, complete_error]

/-- A command whose result is one value writes it to `RES0` (rule R118). -/
theorem exec_of_res0 {x : BitVec s.cfg.W} (h : commandOf s.cfg.W s.valA s.valB s.valC i = .ok [.res0 x]) :
    exec i s = .next { s with regs := { s.regs with res0 := x, errcode := 0, busy := false, done := true } } := by
  rw [exec_eq_complete, h, complete_res0]

/-- A command whose result is two values writes both in one completion (rules R101, R118). -/
theorem exec_of_res0_res1 {x y : BitVec s.cfg.W}
    (h : commandOf s.cfg.W s.valA s.valB s.valC i = .ok [.res0 x, .res1 y]) :
    exec i s = .next { s with regs := { s.regs with
      res0 := x, res1 := y, errcode := 0, busy := false, done := true } } := by
  rw [exec_eq_complete, h, complete_res0_res1]

theorem valA_fits (hc : s.cfg.WellFormed) : Fits s.cfg.W s.valA := by
  obtain ⟨-, hmin, -, -⟩ := hc
  exact val_fits (by omega) _

theorem valB_fits (hc : s.cfg.WellFormed) : Fits s.cfg.W s.valB := by
  obtain ⟨-, hmin, -, -⟩ := hc
  exact val_fits (by omega) _

end

/-- Settles O13: the quotient fits but for `MIN / -1` (`fdiv_fits`). -/
theorem divFloorQuotient : Obligations.DivFloorQuotient := by
  refine ⟨decodeWord_encode .div, fun s hc => ⟨fun hb => ?zero, fun h => ?overflow, fun ⟨hb, h⟩ => ?quotient⟩⟩
  case zero => exact exec_of_error (c := .divByZero) (divCommand_of_zero hb)
  case overflow => exact exec_of_error (c := .overflow) (divCommand_min_neg_one h)
  case quotient =>
    have hq := fdiv_fits (valA_fits hc) h
    exact ⟨exec_of_res0 (divCommand_of_fits hb hq), val_enc_of_wellFormed hc hq⟩

/-- Settles O14: the remainder lies in `[0, |b|)` and so fits (`nnmod_abs_fits`). -/
theorem modNonNegativeRemainder : Obligations.ModNonNegativeRemainder := by
  refine ⟨decodeWord_encode .mod, fun s hc => ⟨fun hb => ?zero, fun hb => ?remainder⟩⟩
  case zero => exact exec_of_error (c := .divByZero) (modCommand_of_zero hb)
  case remainder =>
    have hpos : 0 < |s.valB| := abs_pos.mpr hb
    have hr := nnmod_abs_fits s.valA (valB_fits hc) hb
    exact ⟨exec_of_res0 (modCommand_of_ne_zero hb), nnmod_nonneg _ hpos, nnmod_lt _ hpos, val_enc_of_wellFormed hc hr⟩

/-- Settles O15: the cases of DIV with both results in one completion; `division_identity_of_pos` for the identity. -/
theorem divmodBothOrNeither : Obligations.DivmodBothOrNeither := by
  refine ⟨decodeWord_encode .divmod, fun s hc => ⟨fun hb => ?zero, fun h => ?overflow, fun ⟨hb, h⟩ => ?both⟩⟩
  case zero => exact exec_of_error (c := .divByZero) (divmodCommand_of_zero hb)
  case overflow => exact exec_of_error (c := .overflow) (divmodCommand_min_neg_one h)
  case both =>
    have hq := fdiv_fits (valA_fits hc) h
    have hr := nnmod_abs_fits s.valA (valB_fits hc) hb
    exact ⟨exec_of_res0_res1 (divmodCommand_of_fits hb hq), val_enc_of_wellFormed hc hq, val_enc_of_wellFormed hc hr,
      division_identity_of_pos s.valA⟩

end Sys2Proof.Machine
end

section
/-! PROOFS. INV (rules R102 to R104): the Euclidean loop runs to its end within the passes of the model, and the coefficient
it leaves, normalized, is the one inverse in `[0, m)`. -/

namespace Sys2Proof.Machine

/-! ### The Euclidean loop at its end (rule R103) -/

section
variable {a m : Int}

/-- Each pass lowers the remainder by at least one, so as many passes as the remainder are enough. -/
theorem euclidLoop_r_eq_zero {n : Nat} {e : Euclid} (h : Euclid.Sound a m e) (hn : e.r ≤ n) :
    (euclidLoop n e).r = 0 := by
  induction n generalizing e with
  | zero => exact le_antisymm hn h.r_nonneg
  | succ n ih =>
    rw [euclidLoop]
    split
    case isTrue hr => exact hr
    case isFalse hr =>
      obtain ⟨hpass, hlt⟩ := euclidPass_sound h hr
      exact ih hpass (by omega)

variable (h0 : 0 ≤ a) (hm : a < m)
include h0 hm

theorem euclid_sound : Euclid.Sound a m (euclid a m) :=
  euclidLoop_sound m.toNat (Euclid.start_sound h0 hm)

theorem euclid_r : (euclid a m).r = 0 :=
  euclidLoop_r_eq_zero (Euclid.start_sound h0 hm) (Int.self_le_toNat m)

theorem euclid_oldR : (euclid a m).oldR = Int.gcd a m := by
  have hsound := euclid_sound h0 hm
  rw [← hsound.same_gcd, euclid_r h0 hm, Int.gcd_zero_right, Int.natAbs_of_nonneg hsound.oldR_nonneg]

/-- The candidate reaches `m` at no coprime pair: `m` would divide 1, and for `m = 1` the candidate is 0. -/
theorem euclid_oldS_lt (hone : (euclid a m).oldR = 1) : (euclid a m).oldS < m := by
  have hsound := euclid_sound h0 hm
  refine lt_of_le_of_ne (abs_le.mp hsound.oldS_le).2 fun heq => ?_
  have hdvd := hsound.bezout_oldS
  rw [heq, hone] at hdvd
  have hunit : m ∣ 1 := (dvd_sub_right (dvd_mul_left m a)).mp hdvd
  obtain rfl : m = 1 := Int.eq_one_of_dvd_one (by omega) hunit
  obtain rfl : a = 0 := by omega
  exact absurd heq (by decide)

end

/-- Settles O19: every pass keeps `Euclid.Sound`, and the passes are enough (`euclid_r`). -/
theorem euclidLoopBounds : Obligations.EuclidLoopBounds := by
  intro a0 m h0 hm
  refine ⟨fun n => ?_, euclid_r h0 hm, euclid_oldR h0 hm⟩
  have hsound := euclidLoop_sound n (Euclid.start_sound h0 hm)
  refine ⟨hsound.r_nonneg, hsound.r_le, hsound.oldR_nonneg, hsound.oldR_le, hsound.s_le, hsound.oldS_le, fun hr => ?_⟩
  obtain ⟨hpass, hlt⟩ := euclidPass_sound hsound hr
  exact ⟨hpass.r_nonneg, hlt⟩

/-! ### The normalized coefficient (rule R102) -/

/-- The inverse that INV writes: the coefficient tracked for `a`, with `m` added if it is negative (rule R102). -/
def normalizedInverse (a m : Int) : Int :=
  if (euclid (nnmod a m) m).oldS < 0 then (euclid (nnmod a m) m).oldS + m else (euclid (nnmod a m) m).oldS

theorem normalizedInverse_modEq (a m : Int) : normalizedInverse a m ≡ (euclid (nnmod a m) m).oldS [ZMOD m] := by
  unfold normalizedInverse
  split
  · exact Int.add_modEq_right
  · rfl

section
variable {a m : Int} (hm : 0 < m)
include hm

/-- The reduction of `a` keeps the gcd, so the loop ends with `gcd(a, m)` (rule R102). -/
theorem euclid_nnmod_oldR : (euclid (nnmod a m) m).oldR = Int.gcd a m := by
  rw [euclid_oldR (nnmod_nonneg a hm) (nnmod_lt a hm), nnmod_of_pos a hm, Int.gcd_emod]

theorem normalizedInverse_mem (hgcd : Int.gcd a m = 1) : 0 ≤ normalizedInverse a m ∧ normalizedInverse a m < m := by
  have h0 := nnmod_nonneg a hm
  have hlt := nnmod_lt a hm
  have hone : (euclid (nnmod a m) m).oldR = 1 := by rw [euclid_nnmod_oldR hm, hgcd]; rfl
  have hupper := euclid_oldS_lt h0 hlt hone
  have hlower := (abs_le.mp (euclid_sound h0 hlt).oldS_le).1
  unfold normalizedInverse
  split <;> omega

/-- The normalized coefficient inverts `a`: neither the reduction of `a` nor the added `m` changes the product modulo `m`. -/
theorem mul_normalizedInverse_modEq_one (hgcd : Int.gcd a m = 1) : a * normalizedInverse a m ≡ 1 [ZMOD m] := by
  have hbezout := (euclid_sound (nnmod_nonneg a hm) (nnmod_lt a hm)).bezout_oldS
  rw [euclid_nnmod_oldR hm, hgcd] at hbezout
  have hred : nnmod a m ≡ a [ZMOD m] := by rw [nnmod_of_pos a hm]; exact Int.mod_modEq a m
  calc a * normalizedInverse a m
      ≡ nnmod a m * (euclid (nnmod a m) m).oldS [ZMOD m] := hred.symm.mul (normalizedInverse_modEq a m)
    _ ≡ 1 [ZMOD m] := (Int.modEq_of_dvd hbezout).symm

end

/-- Two inverses modulo `m` differ by a multiple of `m`, so `[0, m)` holds at most one (rule R102). -/
theorem eq_of_inverses {a m x y : Int} (hx0 : 0 ≤ x) (hx : x < m) (hy0 : 0 ≤ y) (hy : y < m) (hinvx : m ∣ a * x - 1)
    (hinvy : m ∣ a * y - 1) : y = x := by
  have hdiff : y - x = y * -(a * x - 1) + x * (a * y - 1) := by ring
  have hdvd : m ∣ y - x := by
    rw [hdiff]
    exact dvd_add (hinvx.neg_right.mul_left y) (hinvy.mul_left x)
  exact sub_eq_zero.mp (Int.eq_zero_of_abs_lt_dvd hdvd (abs_lt.mpr ⟨by omega, by omega⟩))

/-! ### The command (rules R102, R104) -/

section
variable {W : Nat} {a m : Int}

theorem invCommand_of_nonpos (hm : m ≤ 0) : invCommand W a m = .error .domain := if_pos hm

theorem invCommand_of_gcd_ne_one (hm : 0 < m) (h : Int.gcd a m ≠ 1) : invCommand W a m = .error .notInvertible := by
  have hne : (euclid (nnmod a m) m).oldR ≠ 1 := by rw [euclid_nnmod_oldR hm]; exact_mod_cast h
  rw [invCommand, if_neg hm.not_ge, if_pos hne]

theorem invCommand_of_gcd_eq_one (hm : 0 < m) (h : Int.gcd a m = 1) :
    invCommand W a m = .ok [.res0 (enc W (normalizedInverse a m))] := by
  have hone : (euclid (nnmod a m) m).oldR = 1 := by rw [euclid_nnmod_oldR hm, h]; rfl
  rw [invCommand, if_neg hm.not_ge, if_neg (not_not.mpr hone), normalizedInverse]
  split <;> rfl

end

section
variable {s : State}

theorem exec_inv_of_gcd_ne_one (hm : 0 < s.valB) (h : Int.gcd s.valA s.valB ≠ 1) :
    exec .inv s = .next { s with regs := { s.regs with errcode := 5, busy := false, done := true } } :=
  exec_of_error (c := .notInvertible) (invCommand_of_gcd_ne_one hm h)

theorem exec_inv_of_gcd_eq_one (hm : 0 < s.valB) (h : Int.gcd s.valA s.valB = 1) :
    exec .inv s = .next { s with regs := { s.regs with
      res0 := enc s.cfg.W (normalizedInverse s.valA s.valB), errcode := 0, busy := false, done := true } } :=
  exec_of_res0 (invCommand_of_gcd_eq_one hm h)

/-- The result is below the modulus, which the register holds, so it never overflows (rule R102). -/
theorem val_enc_normalizedInverse (hc : s.cfg.WellFormed) (hm : 0 < s.valB) (h : Int.gcd s.valA s.valB = 1) :
    val (enc s.cfg.W (normalizedInverse s.valA s.valB)) = normalizedInverse s.valA s.valB := by
  obtain ⟨hx0, hx⟩ := normalizedInverse_mem hm h
  obtain ⟨-, hmax⟩ := valB_fits hc
  have hmin := maxVal_eq s.cfg.W
  exact val_enc_of_wellFormed hc ⟨by omega, by omega⟩

end

/-- Settles O17: the normalized coefficient is an inverse in `[0, m)`, the only one by `eq_of_inverses`. -/
theorem invUniqueInverse : Obligations.InvUniqueInverse := by
  refine ⟨decodeWord_encode .inv, fun s hc => ⟨fun hm => ?domain, exec_inv_of_gcd_ne_one, fun hm hgcd => ?inverse⟩⟩
  case domain => exact exec_of_error (c := .domain) (invCommand_of_nonpos hm)
  case inverse =>
    obtain ⟨hx0, hx⟩ := normalizedInverse_mem hm hgcd
    have hinv := (mul_normalizedInverse_modEq_one hm hgcd).symm.dvd
    exact ⟨_, hx0, hx, hinv, fun y hy0 hy hinvy => eq_of_inverses hx0 hx hy0 hy hinv hinvy,
      exec_inv_of_gcd_eq_one hm hgcd, val_enc_normalizedInverse hc hm hgcd⟩

/-- Settles O18: the product is 1 modulo `m`, so for `m > 1` it is 1 and the inverse is not 0. -/
theorem inverseProperties : Obligations.InverseProperties := by
  intro s hc hm
  by_cases hgcd : Int.gcd s.valA s.valB = 1
  case neg => exact ⟨_, exec_inv_of_gcd_ne_one hm hgcd, fun h => absurd h hgcd, fun _ => ⟨rfl, rfl⟩⟩
  case pos =>
    refine ⟨_, exec_inv_of_gcd_eq_one hm hgcd, fun _ => ?_, fun h => absurd hgcd h⟩
    rw [val_enc_normalizedInverse hc hm hgcd, nnmod_of_pos _ hm, nnmod_of_pos _ hm]
    obtain ⟨hx0, hx⟩ := normalizedInverse_mem hm hgcd
    have hmod : s.valA * normalizedInverse s.valA s.valB % s.valB = 1 % s.valB := mul_normalizedInverse_modEq_one hm hgcd
    refine ⟨rfl, hmod, fun hgt => ?_, fun hone => by omega⟩
    rw [Int.emod_eq_of_lt zero_le_one hgt] at hmod
    have hne : normalizedInverse s.valA s.valB ≠ 0 := by
      intro hzero
      rw [hzero, mul_zero, Int.zero_emod] at hmod
      exact zero_ne_one hmod
    exact ⟨hmod, by omega, hx⟩

end Sys2Proof.Machine
end

section
/-! PROOFS. POWMOD (rules R105 to R107): the square-and-multiply loop has consumed the exponent after one pass for each of its
bits, what it leaves is the exact power, reduced, and so two runs of the command with an RSA key pair give the block back. -/

namespace Sys2Proof.Machine

/-! ### The square-and-multiply loop at its end (rules R105, R106) -/

section
variable {e m : Int} (base : Int) (hm : 0 < m) (he : 0 ≤ e)
include he

theorem powLoop_start_k (n : Nat) : (powLoop m n (Power.start base e m)).k = e / 2 ^ n :=
  powLoop_k m n (Power.start base e m) he

theorem powLoop_bitlen_k : (powLoop m (bitlen e.toNat) (Power.start base e m)).k = 0 := by
  rw [powLoop_start_k base he]
  have hlt : e < 2 ^ bitlen e.toNat := by exact_mod_cast (Int.toNat_lt he).mp (lt_two_pow_bitlen e.toNat)
  exact Int.ediv_eq_zero_of_lt he hlt

theorem powLoop_k_pos {n : Nat} (hn : n < bitlen e.toNat) : 0 < (powLoop m n (Power.start base e m)).k := by
  rw [powLoop_start_k base he]
  have hle : 2 ^ n ≤ e := by exact_mod_cast (Int.le_toNat he).mp (two_pow_le_of_lt_bitlen hn)
  exact Int.le_ediv_of_mul_le (by positivity) (by rwa [zero_add, one_mul])

include hm

theorem powLoop_start_sound (n : Nat) : Power.Sound base e m (powLoop m n (Power.start base e m)) :=
  powLoop_sound hm n (Power.start_sound hm he)

/-- With no exponent left, the accumulator alone is the power modulo `m`, and it is reduced. -/
theorem power_eq_nnmod_pow : power base e m = nnmod (base ^ e.toNat) m := by
  have hsound := powLoop_start_sound base hm he (bitlen e.toNat)
  have hpower := hsound.same_power
  rw [powLoop_bitlen_k base he, Int.toNat_zero, pow_zero, mul_one] at hpower
  rw [nnmod_of_pos _ hm, ← hpower, Int.emod_eq_of_lt hsound.acc_nonneg hsound.acc_lt, power]

end

/-- Settles O21: `n` passes leave `e / 2^n` of the exponent, and every pass keeps `Power.Sound`, so each product has two
factors in `[0, m)`. -/
theorem powerLoopLengthAndBounds : Obligations.PowerLoopLengthAndBounds := by
  refine fun base e m hm he => ⟨powLoop_bitlen_k base he, fun n => powLoop_k_pos base he, fun n => ?_⟩
  obtain ⟨-, hacc0, hacc, hb0, hb, -⟩ := powLoop_start_sound base hm he n
  exact ⟨hacc0, hacc, hb0, hb, mul_lt_mul'' hacc hb hacc0 hb0, mul_lt_mul'' hb hb hb0 hb0⟩

/-! ### The command (rule R105) -/

section
variable {W : Nat} {base e m : Int}

theorem powmodCommand_of_domain (h : m ≤ 0 ∨ e < 0) : powmodCommand W base e m = .error .domain := if_pos h

theorem powmodCommand_of_pos (hm : 0 < m) (he : 0 ≤ e) :
    powmodCommand W base e m = .ok [.res0 (enc W (nnmod (base ^ e.toNat) m))] := by
  rw [powmodCommand, if_neg (by omega), power_eq_nnmod_pow base hm he]

/-- A residue is below its modulus, so a register that can hold the modulus can hold it (rule R105). -/
theorem nnmod_fits (v : Int) (hfits : Fits W m) (hm : 0 < m) : Fits W (nnmod v m) := by
  have h := nnmod_abs_fits v hfits hm.ne'
  rwa [abs_of_pos hm] at h

end

section
variable {s : State}

theorem valC_fits (hc : s.cfg.WellFormed) : Fits s.cfg.W s.valC := by
  obtain ⟨-, hmin, -, -⟩ := hc
  exact val_fits (by omega) _

/-- All that POWMOD does on operands in its domain (rules R105, R118). -/
theorem exec_powmod_of_pos (hm : 0 < s.valC) (he : 0 ≤ s.valB) :
    exec .powmod s = .next { s with regs := { s.regs with
      res0 := enc s.cfg.W (nnmod (s.valA ^ s.valB.toNat) s.valC), errcode := 0, busy := false, done := true } } :=
  exec_of_res0 (powmodCommand_of_pos hm he)

theorem val_enc_nnmod_valC (hc : s.cfg.WellFormed) (hm : 0 < s.valC) (v : Int) :
    val (enc s.cfg.W (nnmod v s.valC)) = nnmod v s.valC :=
  val_enc_of_wellFormed hc (nnmod_fits v (valC_fits hc) hm)

end

/-- Settles O20: the loop ends with the reduced power (`power_eq_nnmod_pow`), which `RES0` can hold (`nnmod_fits`). -/
theorem powmodExactPower : Obligations.PowmodExactPower := by
  refine ⟨decodeWord_encode .powmod, fun s hc => ⟨fun hdom => ?domain, fun hm he => ?power⟩⟩
  case domain => exact exec_of_error (c := .domain) (powmodCommand_of_domain hdom)
  case power =>
    exact ⟨exec_powmod_of_pos hm he, nnmod_nonneg _ hm, nnmod_lt _ hm, val_enc_nnmod_valC hc hm _⟩

/-! ### The RSA round trip (rule R107) -/

section
variable {p q : Nat} (hp : p.Prime) (hq : q.Prime)
include hp hq

/-- Fermat for each of the two primes, and the Chinese remainder theorem for their product (rule R107). -/
theorem pow_modEq_self_of_mod_eq_one (hne : p ≠ q) {n : Nat} (hn : n % ((p - 1) * (q - 1)) = 1) (x : Int) :
    x ^ n ≡ x [ZMOD (p * q : Nat)] := by
  have hpos : 1 ≤ n := Nat.pos_of_ne_zero fun h => by simp [h] at hn
  have hdvd : (p - 1) * (q - 1) ∣ n - n % ((p - 1) * (q - 1)) := Nat.dvd_sub_mod n
  rw [hn] at hdvd
  have hmodp : x ^ n ≡ x [ZMOD p] := by
    simpa only [pow_one] using Int.ModEq.pow_eq_pow hp (dvd_of_mul_right_dvd hdvd) hpos one_pos x
  have hmodq : x ^ n ≡ x [ZMOD q] := by
    simpa only [pow_one] using Int.ModEq.pow_eq_pow hq (dvd_of_mul_left_dvd hdvd) hpos one_pos x
  have hcoprime : (p : Int).natAbs.Coprime (q : Int).natAbs := (Nat.coprime_primes hp hq).mpr hne
  rw [Nat.cast_mul]
  exact (Int.modEq_and_modEq_iff_modEq_mul hcoprime).mp ⟨hmodp, hmodq⟩

/-- The power with `d` of the reduced power with `e` is the block itself, which is reduced (rule R107). -/
theorem nnmod_pow_nnmod_pow (hne : p ≠ q) {e d x : Nat} (hed : e * d % ((p - 1) * (q - 1)) = 1) (hx : x < p * q) :
    nnmod (nnmod ((x : Int) ^ e) (p * q : Nat) ^ d) (p * q : Nat) = x := by
  have hn : (0 : Int) < (p * q : Nat) := by exact_mod_cast Nat.zero_lt_of_lt hx
  have hround : (x ^ e % (p * q : Nat) : Int) ^ d ≡ x [ZMOD (p * q : Nat)] :=
    calc (x ^ e % (p * q : Nat) : Int) ^ d
        ≡ (x ^ e) ^ d [ZMOD (p * q : Nat)] := (Int.mod_modEq _ _).pow d
      _ = x ^ (e * d) := (pow_mul _ e d).symm
      _ ≡ x [ZMOD (p * q : Nat)] := pow_modEq_self_of_mod_eq_one hp hq hne hed x
  rw [nnmod_of_pos _ hn, nnmod_of_pos _ hn, hround, Int.emod_eq_of_lt x.cast_nonneg (by exact_mod_cast hx)]

end

/-- POWMOD on operands that are natural numbers, the modulus positive, ends with success and the reduced power. -/
theorem exec_powmod_natCast {s : State} (hc : s.cfg.WellFormed) {k n : Nat} (hn : 0 < n) (hB : s.valB = k)
    (hC : s.valC = n) :
    ∃ r : Regs s.cfg.W, exec .powmod s = .next { s with regs := r } ∧ r.errcode = 0 ∧
      val r.res0 = nnmod (s.valA ^ k) n := by
  have hm : 0 < s.valC := by omega
  have hres := val_enc_nnmod_valC hc hm (s.valA ^ s.valB.toNat)
  refine ⟨_, exec_powmod_of_pos hm (by omega), rfl, hres.trans ?_⟩
  rw [hB, hC, Int.toNat_natCast]

/-- Settles O22: each run writes the reduced power (`exec_powmod_natCast`), and the two powers compose to the block. -/
theorem rsaRoundTrip : Obligations.RsaRoundTrip := by
  intro p q e d x s u hp hq hne hed hx hcs hcu hsA hsB hsC
  have hn : 0 < p * q := Nat.zero_lt_of_lt hx
  obtain ⟨r, hexec, hcode, hres⟩ := exec_powmod_natCast hcs hn hsB hsC
  refine ⟨r, hexec, hcode, fun huA huB huC => ?_⟩
  obtain ⟨r', hexec', hcode', hres'⟩ := exec_powmod_natCast hcu hn huB huC
  refine ⟨r', hexec', hcode', ?_⟩
  rw [hres', huA, hres, hsA, nnmod_pow_nnmod_pow hp hq hne hed hx]

end Sys2Proof.Machine
end

section
/-! PROOFS. Errors, completion and the interrupt output (60_exceptions.md): a core's turn runs the command in `CMD`, what a
completion can change and with which code it can end, and what raises and lowers `IRQ`. -/

namespace Sys2Proof.Machine

/-! ### The step of a busy core (rule R118) -/

section
variable {s : State} {ts : List Turn}

theorem step_core (hs : s.sched = .core :: ts) : step s = coreTurn { s with sched := ts } := by
  simp only [step, hs, takeTurn]

theorem coreTurn_of_idle (hb : s.regs.busy = false) : coreTurn s = .next s := by
  rw [coreTurn, hb, Bool.false_and]
  rfl

theorem completion_of_decodeWord {i : Instr} (hcmd : decodeWord s.regs.cmd = .ok i) : completion s = exec i s := by
  rw [completion, hcmd]

end

/-- Settles O26: a busy core's turn, scheduled or eager, is the completion of the command that `CMD` decodes to. -/
theorem stepRunsTheDecodedCommand : Obligations.StepRunsTheDecodedCommand := by
  refine ⟨fun s i hb hrst hcmd => ⟨fun ts hs => ?scheduled, fun hs => ?eager⟩, fun s ts hb hs => ?idle⟩
  case scheduled =>
    rw [step_core hs]
    exact coreTurn_of_decodeWord hb hrst hcmd
  case eager => rw [step_of_busy hrst hb hs, completion_of_decodeWord hcmd]
  case idle =>
    rw [step_core hs]
    exact coreTurn_of_idle hb

/-! ### The frame of a completion (rules R109, R118, R119) -/

section
variable {W : Nat} (r : Regs W)

/-- The writes of a command reach the results and the flags only (rules R25, R81). -/
theorem applyWrites_frame (ws : List (RegWrite W)) :
    ∃ (x y : BitVec W) (lt eq gt : Bool),
      applyWrites r ws = { r with res0 := x, res1 := y, lt := lt, eq := eq, gt := gt } := by
  induction ws generalizing r with
  | nil => exact ⟨r.res0, r.res1, r.lt, r.eq, r.gt, rfl⟩
  | cons w ws ih =>
    obtain ⟨x, y, lt, eq, gt, h⟩ := ih (applyWrite r w)
    refine ⟨x, y, lt, eq, gt, h.trans ?_⟩
    cases w <;> rfl

/-- All that a completion can do to the registers: a success writes results and flags with code 0, an error writes its code;
both end the command (rule R118). -/
theorem finish_cases (out : CommandResult W) :
    (∃ (x y : BitVec W) (lt eq gt : Bool), finish r out = { r with
      res0 := x, res1 := y, lt := lt, eq := eq, gt := gt, errcode := 0, busy := false, done := true }) ∨
    ∃ c : ErrorCode, finish r out = takeError c r := by
  cases out with
  | ok ws =>
    obtain ⟨x, y, lt, eq, gt, h⟩ := applyWrites_frame r ws
    exact .inl ⟨x, y, lt, eq, gt, by rw [finish, takeSuccess, h]⟩
  | error c => exact .inr ⟨c, rfl⟩

end

/-- Settles O28: `exec` is a completion, and a code other than 0 is that of an error, which writes no result and no flag. -/
theorem completionFrame : Obligations.CompletionFrame := by
  intro i s
  refine ⟨_, exec_eq_complete i s, ?_⟩
  rcases finish_cases s.regs (commandOf s.cfg.W s.valA s.valB s.valC i) with ⟨x, y, lt, eq, gt, h⟩ | ⟨c, h⟩ <;> rw [h]
  · exact ⟨rfl, rfl, rfl, rfl, rfl, rfl, rfl, rfl, absurd rfl⟩
  · exact ⟨rfl, rfl, rfl, rfl, rfl, rfl, rfl, rfl, fun _ => ⟨rfl, rfl, rfl, rfl, rfl⟩⟩

/-! ### The error codes (rules R110 to R114) -/

/-- Settles O30: each form of a command's result has one code, and names the commands that have it. -/
theorem errorCodesByCommand : Obligations.ErrorCodesByCommand := by
  intro i s
  obtain ⟨out, hform, hexec⟩ := exec_cases i s
  refine ⟨finish s.regs out, hexec, ?_⟩
  cases hform with
  | one | two | flags => exact .inl rfl
  | overflow hi => exact .inr (.inl ⟨rfl, hi⟩)
  | divByZero hi => exact .inr (.inr (.inl ⟨rfl, hi⟩))
  | domain hi => exact .inr (.inr (.inr (.inl ⟨rfl, hi⟩)))
  | notInvertible => exact .inr (.inr (.inr (.inr ⟨rfl, rfl⟩)))

/-! ### The interrupt output (rules R52, R122) -/

theorem irq_of_not_done {s : State} (h : s.regs.done = false) : s.irq = false := by
  rw [State.irq, h, Bool.and_false]

theorem writeStatus_done_of_clear {W : Nat} (r : Regs W) {v : Word} (h1 : v.getLsbD 1 = true) :
    (writeStatus r v).done = false := by
  rw [writeStatus, h1, Bool.not_true, Bool.and_false]

/-- Settles O31: the three clearing writes leave `DONE` at 0, and the write of `IEN` alone leaves it as it was. -/
theorem interruptEnableAndClear : Obligations.InterruptEnableAndClear := by
  refine fun s v => ⟨rfl, fun h1 => irq_of_not_done ?status, fun hb h1 h0 => irq_of_not_done ?start,
    fun h1 => irq_of_not_done ?reset, fun h1 h0 => ?enable⟩
  case status => exact writeStatus_done_of_clear s.regs h1
  case start => rw [writeOffset_ctrl, writeCtrl_start_idle s.regs v h1 h0 hb, acceptStart_done]
  case reset => rw [writeOffset_ctrl, writeCtrl_reset s.regs v h1, reset_done]
  case enable =>
    rw [writeOffset_ctrl, writeCtrl_ien s.regs v h1 h0]
    exact ⟨rfl, rfl⟩

end Sys2Proof.Machine
end

section
/-! PROOFS. Reset and hazards (70_reset_and_hazards.md): what a step does under an asserted reset, what a START after a soft
reset runs, and that a command in progress ends on every schedule without a reset. -/

namespace Sys2Proof.Machine

/-! ### The hard reset (rule R131) -/

/-- The reset input is released only by the schedule: the eager turn is never a release (log 2). -/
theorem nextTurn_releaseReset_iff (s : State) : nextTurn s = .releaseReset ↔ s.sched.head? = some .releaseReset := by
  unfold nextTurn
  cases s.sched with
  | nil =>
    simp only [defaultTurn, List.head?_nil, reduceCtorEq, iff_false]
    split <;> exact nofun
  | cons turn ts => simp only [List.head?_cons, Option.some.injEq]

/-- Under an asserted reset a step that is no release reaches only the environment: the core's turn does nothing and the host's
writes are ignored. -/
theorem step_of_asserted {s t : State} (hrst : s.rst = true) (h : step s = .next t) (hturn : nextTurn s ≠ .releaseReset) :
    t = { s with host := t.host, sched := t.sched, rdata := t.rdata, got := t.got, free := t.free } := by
  rcases step_cases h with ⟨-, -, hlow, -⟩ | ⟨-, -, ht⟩ | ⟨-, hhost⟩ | ⟨-, ht⟩ | ⟨hrelease, -⟩
  · simp [hrst] at hlow
  · rw [ht]
  · obtain ⟨r, ht, hr, -⟩ := hostTurn_cases hhost
    rcases hr with rfl | ⟨hlow, -⟩
    · rw [ht]
    · simp [hrst] at hlow
  · rw [ht, ← hrst]
  · exact absurd hrelease hturn

/-- The release, scheduled under an asserted reset, is the next step (rules R53, R131). -/
theorem step_release {s : State} (hrst : s.rst = true) (hturn : nextTurn s = .releaseReset) :
    step s = .next { s with sched := s.sched.tail, rst := false, regs := Regs.reset s.cfg.W } := by
  rw [step_eq, hturn, takeTurn, releaseReset_of_asserted (s := { s with sched := s.sched.tail }) hrst]

/-- Settles O51: `step_of_asserted` until the release, `step_release` at it. -/
theorem hardResetHoldsThenClears : Obligations.HardResetHoldsThenClears := by
  intro s t hrst h
  have hiff := nextTurn_releaseReset_iff s
  refine ⟨fun hhead => step_of_asserted hrst h (mt hiff.mp hhead), fun hhead => ?_⟩
  exact Host.Outcome.next.inj (h.symm.trans (step_release hrst (hiff.mpr hhead)))

/-! ### A START after a soft reset (rule R142) -/

/-- The two writes leave the reset record with a command in progress. -/
theorem writeCtrl_start_after_softReset {W : Nat} (r : Regs W) :
    writeCtrl (writeCtrl r 0x2) 0x1 = acceptStart (Regs.reset W) := by
  rw [writeCtrl_reset r 0x2 (by decide), writeCtrl_start_idle (Regs.reset W) 0x1 (by decide) (by decide) rfl]
  rfl

/-- Settles O52: after the reset `CMD` is 0, no legal word, so the completion is that of an illegal command. -/
theorem startAfterResetIsIllegal : Obligations.StartAfterResetIsIllegal := by
  intro s hrst
  rw [writeOffset_ctrl, writeOffset_ctrl, writeCtrl_start_after_softReset]
  let started : State := { s with regs := acceptStart (Regs.reset s.cfg.W) }
  have hillegal : ¬ LegalWord 0 := by decide
  have hturn : coreTurn started = completion started := by simp [coreTurn, started, hrst]
  exact hturn.trans (completion_of_not_legalWord (s := started) hillegal)

/-! ### A command in progress completes (rules R119, R145) -/

/-- A step uses up one turn of the schedule. -/
theorem step_sched {s t : State} (h : step s = .next t) : t.sched = s.sched.tail := by
  rcases step_cases h with ⟨-, -, -, ht⟩ | ⟨-, -, ht⟩ | ⟨-, hhost⟩ | ⟨-, ht⟩ | ⟨-, ht⟩
  · rw [ht]
  · rw [ht]
  · obtain ⟨r, ht, -⟩ := hostTurn_cases hhost
    rw [ht]
  · rw [ht]
  · rw [ht]
    split <;> rfl

/-- Without a reset no step brings one about: schedule and queue only shrink, and the counter of free values stays. -/
theorem step_keeps_resetFree {s t : State} (hfree : s.ResetFree) (h : step s = .next t) : t.ResetFree := by
  obtain ⟨hhost, hcfg⟩ := step_host_cfg h
  obtain ⟨r, ht, -⟩ := step_cases_of_resetFree hfree h
  have hrst : t.rst = false := by rw [ht]; exact hfree.not_asserted
  refine ⟨hrst, fun turn hmem => ?_, fun op hop => ?_, fun op hop => ?_⟩
  · rw [step_sched h] at hmem
    exact hfree.turns turn (List.mem_of_mem_tail hmem)
  · rw [hcfg]
    exact hfree.contract op (hhost op hop)
  · rw [hcfg]
    exact hfree.no_soft_reset op (hhost op hop)

/-- The registers with the three bits set that the host can change while a command is in progress (rules R37, R47, R50). -/
def Regs.setHostBits {W : Nat} (ien done lost : Bool) (r : Regs W) : Regs W :=
  { r with ien := ien, done := done, lost := lost }

/-- A step of a busy core without a reset completes the command or changes at most the three host bits. -/
theorem step_of_busy_cases {s t : State} (hfree : s.ResetFree) (hb : s.regs.busy = true) (h : step s = .next t) :
    ∃ r : Regs s.cfg.W, t = { s with regs := r, host := t.host, sched := t.sched, rdata := t.rdata, got := t.got } ∧
      (r = finish s.regs (outcomeOf s) ∨ ∃ ien done lost, r = s.regs.setHostBits ien done lost) := by
  obtain ⟨r, ht, hr⟩ := step_cases_of_resetFree hfree h
  refine ⟨r, ht, ?_⟩
  rcases hr with ⟨-, hr⟩ | rfl | ⟨off, v, hv, rfl⟩
  · exact .inl hr
  · exact .inr ⟨_, _, _, rfl⟩
  · exact .inr (writeOffset_of_busy s.regs hb hv)

/-- A completion keeps what the host wrote to `IEN` and `LOST`, and sets `DONE` whatever the host wrote (rules R118, R119). -/
theorem finish_setHostBits {W : Nat} (r : Regs W) (ien done lost : Bool) (out : CommandResult W) :
    finish (r.setHostBits ien done lost) out = { finish r out with ien := ien, lost := lost } := by
  cases out with
  | error c => rfl
  | ok ws =>
    have hwrites : applyWrites (r.setHostBits ien done lost) ws = (applyWrites r ws).setHostBits ien done lost :=
      applyWrites_comm (fun _ w => by cases w <;> rfl) r ws
    rw [finish, takeSuccess, hwrites]
    rfl

/-- `n` steps from `s` end with the completion of the command in progress at `s`: of the registers only `IEN`
and `LOST` may differ from those after the completion at `s`. -/
def CompletesIn (s : State) (n : Nat) : Prop :=
  ∃ (ien lost : Bool) (host : List HostOp) (sched : List Turn) (rdata : List (Option Word)) (got : List Int),
    Sys2Proof.core.run n s = .next { s with
      regs := { finish s.regs (outcomeOf s) with ien := ien, lost := lost },
      host := host, sched := sched, rdata := rdata, got := got }

/-- A step that completes the command. -/
theorem completesIn_one {s t : State} (h : step s = .next t)
    (ht : t = { s with
      regs := finish s.regs (outcomeOf s), host := t.host, sched := t.sched, rdata := t.rdata, got := t.got }) :
    CompletesIn s 1 :=
  ⟨_, _, _, _, _, _, by rw [run_succ h, run_zero]; exact congrArg _ ht⟩

/-- A step that changes only host bits leaves the same command on the same operands to complete. -/
theorem completesIn_succ {s t : State} {n : Nat} {ien done lost : Bool} (h : step s = .next t)
    (ht : t = { s with
      regs := s.regs.setHostBits ien done lost, host := t.host, sched := t.sched, rdata := t.rdata, got := t.got })
    (hn : CompletesIn t n) : CompletesIn s (n + 1) := by
  generalize t.host = ops, t.sched = ts, t.rdata = words, t.got = formed at ht
  subst ht
  obtain ⟨ien', lost', host, sched, rdata, got, hrun⟩ := hn
  refine ⟨ien', lost', host, sched, rdata, got, ?_⟩
  rw [run_succ h, hrun, finish_setHostBits]
  rfl

/-- A command in progress completes at the latest when the schedule is used up, since the eager turn is then the core's. -/
theorem exists_completesIn {s : State} (hfree : s.ResetFree) (hb : s.regs.busy = true) :
    ∃ n ≤ s.sched.length + 1, CompletesIn s n := by
  induction hs : s.sched generalizing s with
  | nil =>
    have hstep := (step_of_busy hfree.not_asserted hb hs).trans (completion_eq s)
    exact ⟨1, le_rfl, completesIn_one hstep rfl⟩
  | cons turn ts ih =>
    obtain ⟨t, h⟩ := step_ok hfree.contract
    obtain ⟨r, ht, rfl | ⟨ien, done, lost, rfl⟩⟩ := step_of_busy_cases hfree hb h
    · exact ⟨1, by simp, completesIn_one h ht⟩
    · have hbt : t.regs.busy = true := by rw [ht]; exact hb
      obtain ⟨n, hn, hcompletes⟩ := ih (step_keeps_resetFree hfree h) hbt (by rw [step_sched h, hs, List.tail_cons])
      exact ⟨n + 1, by simpa using hn, completesIn_succ h ht hcompletes⟩

/-- Settles O56: by `exists_completesIn`, an induction on the schedule. -/
theorem everyStartedCommandCompletes : Obligations.EveryStartedCommandCompletes := by
  intro s hfree hb
  obtain ⟨n, hn, ien, lost, host, sched, rdata, got, hrun⟩ := exists_completesIn hfree hb
  exact ⟨n, _, ien, lost, host, sched, rdata, got, hn, completion_eq s, hrun⟩

end Sys2Proof.Machine
end
